-- ==== Sys2Proof/Word.lean ====
section
/-! DEFINITION. The word types of the block (spec/00_scope.md R8): every value is a bit vector of a stated width,
bit 0 the least significant. Timestamps are read unsigned (`toNat`), positions two's complement (`toInt`). -/

namespace Sys2Proof

/-- A value of `n` bits (R8). -/
abbrev Word (n : Nat) := BitVec n

/-- The control word `CTRL[2:0] = {rst, en, level}` (spec/30_encoding.md R71). -/
abbrev Control := Word 3

/-- The 2-bit code in which the register `motorState` is held (spec/30_encoding.md R74). -/
abbrev StateCode := Word 2

end Sys2Proof
end

