-- ==== Sys2Proof/Config.lean ====
section
/-! DEFINITION. The build-time configuration of the block (spec/00_scope.md R6, spec/10_state.md R32), its values at
the widths at which the rules read them, the configuration `V` of the test vectors, and the free values: what the host
puts on the input ports when it has fixed nothing (spec/93_implementation_defined.md U6, U7, U8). -/

namespace Sys2Proof

/-- The nine parameters of R6. They are raw numbers, so that "every value fits its width" (R7) is a condition a
configuration can break; `Config.wellFormed` (WellFormed.lean) is that condition. -/
structure Config where
  /-- `TW`, the width of a timestamp and of both thresholds -/
  tw : Nat
  /-- `SENTINEL`, the reset value of both shadows and of `riseTime` -/
  sentinel : Nat
  /-- `HI_THRESH`, the upper hi-time threshold, in ticks -/
  hiThresh : Nat
  /-- `LO_THRESH`, the lower hi-time threshold, in ticks -/
  loThresh : Nat
  /-- `PW`, the width of `position` -/
  pw : Nat
  /-- `TACH_MIN`, the lower position bound -/
  tachMin : Int
  /-- `TACH_MAX`, the upper position bound -/
  tachMax : Int
  /-- `DW`, the width of the duty output -/
  dw : Nat
  /-- `MOTORSPEED`, the duty value written when the motor is driven -/
  motorSpeed : Nat
deriving DecidableEq, Repr

/-- `SENTINEL` at its width `TW`. -/
def Config.sentinelW (c : Config) : Word c.tw := BitVec.ofNat c.tw c.sentinel

/-- `HI_THRESH` at its width `TW` (R73). -/
def Config.hiThreshW (c : Config) : Word c.tw := BitVec.ofNat c.tw c.hiThresh

/-- `LO_THRESH` at its width `TW` (R73). -/
def Config.loThreshW (c : Config) : Word c.tw := BitVec.ofNat c.tw c.loThresh

/-- `TACH_MIN` at its width `PW`, two's complement (R73). -/
def Config.tachMinW (c : Config) : Word c.pw := BitVec.ofInt c.pw c.tachMin

/-- `TACH_MAX` at its width `PW`, two's complement (R73). -/
def Config.tachMaxW (c : Config) : Word c.pw := BitVec.ofInt c.pw c.tachMax

/-- `MOTORSPEED` at its width `DW`. -/
def Config.motorSpeedW (c : Config) : Word c.dw := BitVec.ofNat c.dw c.motorSpeed

/-- The vector configuration `V` (R6, last column; decision D30). It is no claim about any real build:
DESIGN CHOICE, notes/assumptions/1.md says where the model uses it. -/
def Config.vectors : Config where
  tw := 16
  sentinel := 0xFFFF
  hiThresh := 2000
  loThresh := 1000
  pw := 16
  tachMin := -2
  tachMax := 3
  dw := 16
  motorSpeed := 200

/-- FREE VALUE (U7, U8: "any value per step"): the control word on the ports at the `n`-th step for which the host has
fixed none. It has no body here, so no proof can see what it is. notes/assumptions/2.md. -/
opaque Config.freeControl : Nat → Control

/-- FREE VALUE (U6: "any value per step"): the tick count on the port `now` at the `n`-th step for which the host has
fixed none; the port carries its low `TW` bits. notes/assumptions/2.md. -/
opaque Config.freeNow : Nat → Nat

end Sys2Proof
end

