-- ==== Sys2Proof/Syntax.lean ====
section
/-! DEFINITION. The commands of the block, one constructor for each row of spec/opcode_table.json
(spec/30_encoding.md R72, spec/44_control_step.md R191 to R194); what one activation of the block is given on its input
ports (R70, R71); and the lines of the command notation with its one pseudo-instruction (R80, R81). -/

namespace Sys2Proof

/-- The four commands. `now` is the tick count given with a SAMPLE command (R71); RESET and HOLD have no operand. -/
inductive Instr where
  /-- `RST`: RESET (R191) -/
  | rst
  /-- `HOLD`: HOLD (R192) -/
  | hold
  /-- `LO n`: SAMPLE_LOW at `now = n` (R193) -/
  | lo (now : Nat)
  /-- `HI n`: SAMPLE_HIGH at `now = n` (R194) -/
  | hi (now : Nat)
deriving DecidableEq, Repr

/-- The value written in the `now` field of a command's line: 0 for `RST` and `HOLD` (R80). -/
def Instr.operand : Instr → Nat
  | .rst => 0
  | .hold => 0
  | .lo now => now
  | .hi now => now

/-- The SAMPLE command for a sampled level (R72): `HI` when the line is high, `LO` when it is low. -/
def Instr.sample (level : Bool) (now : Nat) : Instr :=
  match level with
  | true => .hi now
  | false => .lo now

/-- What one step is given on the input ports (R71): exactly one control word and one `now` value. -/
structure Activation (tw : Nat) where
  ctrl : Control
  now : Word tw
deriving DecidableEq, Repr

/-- A line of the notation (R80, R81): a command, or the pseudo-instruction `PULSE a, b`. -/
inductive Line where
  | command (i : Instr)
  | pulse (a b : Nat)
deriving DecidableEq, Repr

/-- The commands a line stands for: `PULSE a, b` is `HI a` followed by `LO b` (R81). -/
def Line.expand : Line → List Instr
  | .command i => [i]
  | .pulse a b => [.hi a, .lo b]

end Sys2Proof
end

