-- ==== Sys2Proof/WellFormed.lean ====
section
/-! DEFINITION. What well-formed means: of a configuration, the constraints of spec/00_scope.md R7, one name for each;
of a command and of a line, that its numbers fit the port `now` (spec/30_encoding.md R80: `0 .. 2^TW - 1`). -/

namespace Sys2Proof

/-- R7: `TW >= 2`, `PW >= 2`, `DW >= 1`. -/
abbrev Config.WidthsOk (c : Config) : Prop := 2 ≤ c.tw ∧ 2 ≤ c.pw ∧ 1 ≤ c.dw

/-- R7: `SENTINEL != 0`, and it fits `TW` bits. -/
abbrev Config.SentinelOk (c : Config) : Prop := c.sentinel ≠ 0 ∧ c.sentinel < 2 ^ c.tw

/-- R7: `LO_THRESH + 2 <= HI_THRESH`, and both fit `TW` bits (the lower one does when the upper one does). -/
abbrev Config.ThresholdsOk (c : Config) : Prop := c.loThresh + 2 ≤ c.hiThresh ∧ c.hiThresh < 2 ^ c.tw

/-- R7: `TACH_MIN <= 0 <= TACH_MAX`. -/
abbrev Config.BoundsOk (c : Config) : Prop := c.tachMin ≤ 0 ∧ 0 ≤ c.tachMax

/-- R7: both bounds fit `PW` bits, two's complement. -/
abbrev Config.BoundsFit (c : Config) : Prop :=
  -((2 ^ (c.pw - 1) : Nat) : Int) ≤ c.tachMin ∧ c.tachMax < ((2 ^ (c.pw - 1) : Nat) : Int)

/-- R7: `MOTORSPEED` fits `DW` bits; any such value is allowed, 0 too. -/
abbrev Config.SpeedOk (c : Config) : Prop := c.motorSpeed < 2 ^ c.dw

/-- R7: whether the configuration breaks no constraint of R6. -/
def Config.wellFormed (c : Config) : Bool :=
  decide c.WidthsOk && decide c.SentinelOk && decide c.ThresholdsOk && decide c.BoundsOk && decide c.BoundsFit
    && decide c.SpeedOk

/-- A command is well-formed for timestamps of `tw` bits when its `now` value fits the port (R80). -/
abbrev Instr.WellFormed (tw : Nat) (i : Instr) : Prop := i.operand < 2 ^ tw

/-- A line is well-formed when every command it stands for is (R81). -/
abbrev Line.WellFormed (tw : Nat) (l : Line) : Prop := ∀ i ∈ l.expand, i.WellFormed tw

end Sys2Proof
end

