-- ==== Sys2Proof/Decode.lean ====
section
/-! DEFINITION. From the input ports to a command and back (spec/30_encoding.md R71, R72, R79, R80).
The decoder is total on the ports and rejects nothing: "All 8 patterns decode; no pattern is reserved or illegal".
The word form `{now, rst, en, level}` lays `now` directly above the control word (DESIGN CHOICE,
notes/assumptions/3.md); only a word with bits above its `TW + 3` is rejected, by name. -/

namespace Sys2Proof

/-- `rst` is bit 2 of the control word (R71). -/
def Control.rst (w : Control) : Bool := w.getLsbD 2

/-- `en` is bit 1 of the control word (R71). -/
def Control.en (w : Control) : Bool := w.getLsbD 1

/-- `level` is bit 0 of the control word (R71). -/
def Control.level (w : Control) : Bool := w.getLsbD 0

/-- `CTRL[2:0] = {rst, en, level}` (R71). -/
def Control.ofPorts (rst en level : Bool) : Control :=
  BitVec.ofBool rst ++ BitVec.ofBool en ++ BitVec.ofBool level

/-- The command the ports select (R72): `1xx` RESET, `00x` HOLD, `010` SAMPLE_LOW, `011` SAMPLE_HIGH; `rst` takes
precedence over `en`, and RESET and HOLD ignore `now` and the bits the table marks x. -/
def decodeActivation {tw : Nat} (a : Activation tw) : Instr :=
  if Control.rst a.ctrl then .rst
  else if Control.en a.ctrl then .sample (Control.level a.ctrl) a.now.toNat
  else .hold

/-- The control word of each command as the notation writes it (R80). -/
def Instr.control : Instr → Control
  | .rst => 0b100#3
  | .hold => 0b000#3
  | .lo _ => 0b010#3
  | .hi _ => 0b011#3

/-- The ports a line of the notation puts a command on (R80). -/
def encode (tw : Nat) (i : Instr) : Activation tw := ⟨i.control, BitVec.ofNat tw i.operand⟩

/-- A row of spec/opcode_table.json: the mnemonic's command at operand `now`, and the row's mask and match. -/
structure OpcodeRow where
  command : Nat → Instr
  mask : Control
  pattern : Control

/-- spec/opcode_table.json, row by row. -/
def opcodeTable : List OpcodeRow :=
  [⟨fun _ => .rst, 0b100#3, 0b100#3⟩,
   ⟨fun _ => .hold, 0b110#3, 0b000#3⟩,
   ⟨fun now => .lo now, 0b111#3, 0b010#3⟩,
   ⟨fun now => .hi now, 0b111#3, 0b011#3⟩]

/-- Whether a row's pattern is the control word's, on the bits its mask keeps. -/
def OpcodeRow.selects (row : OpcodeRow) (w : Control) : Bool := w &&& row.mask == row.pattern

/-- Why a word is not an activation. -/
inductive Reject where
  /-- a bit above the `TW + 3` bits of `{now, CTRL}` is set: raised by `decodeWord` only; safe, no port carries it -/
  | bitsAboveNow
deriving DecidableEq, Repr

/-- The ports a word stands for: `CTRL` in bits 2..0, `now` in the `tw` bits above (notes/assumptions/3.md). -/
def Activation.ofWord (tw : Nat) (w : Nat) : Activation tw := ⟨BitVec.ofNat 3 w, BitVec.ofNat tw (w >>> 3)⟩

/-- The word that stands for the ports. -/
def Activation.toWord {tw : Nat} (a : Activation tw) : Nat := a.now.toNat * 8 + a.ctrl.toNat

/-- The word of a command. -/
def encodeWord (tw : Nat) (i : Instr) : Nat := (encode tw i).toWord

/-- The command of a word, total, rejecting by name. -/
def decodeWord (tw : Nat) (w : Nat) : Except Reject Instr :=
  if w < 2 ^ (tw + 3) then .ok (decodeActivation (Activation.ofWord tw w)) else .error .bitsAboveNow

/-- The host's probe of the decoder: an instruction whose `nbits` bits are `w`, every bit above them 0, at the
timestamp width of `State.reset`'s configuration. -/
def decodeTableWord (nbits w : Nat) : Option Instr :=
  match decodeWord Config.vectors.tw (w % 2 ^ nbits) with
  | .ok i => some i
  | .error _ => none

end Sys2Proof
end

