-- ==== Sys2Proof/Machine/State.lean ====
section
/-! DEFINITION. The state of the block: the ten registers of spec/10_state.md R20 and the command trace of the last
step (R31), with the build-time configuration and the host's side of the input ports beside them; and what stops it. -/

namespace Sys2Proof.Machine

/-- The motor states (spec/10_state.md R27). -/
inductive MotorState where
  | stop
  | extend
  | retract
deriving DecidableEq, Repr

/-- The 2-bit code of a motor state (spec/30_encoding.md R74). -/
def MotorState.code : MotorState → StateCode
  | .stop => 0b00#2
  | .extend => 0b01#2
  | .retract => 0b10#2

/-- The reserved code of `motorState` (R74, R78). -/
def reservedCode : StateCode := 0b11#2

/-- A motor command (R76). `Drive` carries the `motorDir` current when it is emitted. -/
inductive MotorCmd where
  | drive (dir : Bool)
  | halt
deriving DecidableEq, Repr

/-- The registers of R20, at the widths of the configuration `c`. `motorState` is held as its raw 2-bit code, so that
the reserved code is a value it can hold (R78, R223; notes/assumptions/4.md). -/
structure Regs (c : Config) where
  /-- the timestamp of the most recent rise capture (R21) -/
  riseTime : Word c.tw
  /-- the timestamp of the most recent fall capture (R22) -/
  fallTime : Word c.tw
  /-- the shadow of `riseTime` (R23) -/
  lastSeenRise : Word c.tw
  /-- the shadow of `fallTime` (R24) -/
  lastSeenFall : Word c.tw
  /-- the most recent valid hi-time, in ticks (R25) -/
  hiTime : Word c.tw
  /-- the one status flag (R26) -/
  motionRequest : Bool
  /-- the current motor state, as its code (R27, R74) -/
  motorState : StateCode
  /-- the saturating position counter, two's complement (R28) -/
  position : Word c.pw
  /-- the direction output bit, 1 the direction of EXTEND (R29, R75) -/
  motorDir : Bool
  /-- the duty value last written to the Motor Driver (R30) -/
  motorDuty : Word c.dw
deriving DecidableEq, Repr

/-- A step in flight: the registers as its earlier stages left them, and the commands emitted so far (R9). -/
structure Work (c : Config) where
  regs : Regs c
  trace : List MotorCmd
deriving DecidableEq, Repr

/-- The machine. Only `regs` and `trace` are the block's own; the other three are the model's. -/
structure State where
  /-- the configuration, fixed at build time: no step writes it (R32, R229; notes/assumptions/1.md) -/
  cfg : Config
  /-- the registers (R20) -/
  regs : Regs cfg
  /-- the command trace of the most recent step, oldest command first (R31, R196; notes/assumptions/7.md) -/
  trace : List MotorCmd
  /-- what the host has already fixed for the coming steps' ports, next step first (R199; notes/assumptions/2.md) -/
  pending : List (Activation cfg.tw)
  /-- how many steps took their ports from the free values (notes/assumptions/2.md) -/
  draws : Nat
deriving DecidableEq, Repr

/-- What stops the machine with a fault. The block itself has no exceptions (spec/60_exceptions.md R220). -/
inductive Fault where
  /-- a SAMPLE step found the reserved code `0b11` in `motorState` (R223): raised by `execLo` and `execHi`; safe, the
  spec gives this fault and no run from power-up reaches it -/
  | reservedMotorState
deriving DecidableEq, Repr

/-- What the model gives no meaning. -/
inductive Refusal where
  /-- an instruction without a meaning yet: raised in `exec`'s arms only, by none at present; safe -/
  | notModelled (mnemonic : String)
  /-- the configuration breaks R7 (R224): raised by every command; safe, the spec gives it no meaning -/
  | illFormedConfiguration
deriving DecidableEq, Repr

/-- The reset values of the registers (R20, R191, R252). -/
def Regs.reset (c : Config) : Regs c where
  riseTime := c.sentinelW
  fallTime := 0
  lastSeenRise := c.sentinelW
  lastSeenFall := c.sentinelW
  hiTime := 0
  motionRequest := false
  motorState := MotorState.stop.code
  position := 0
  motorDir := false
  motorDuty := 0

/-- The block at power-up with configuration `c` (spec/70_reset_and_hazards.md R250), no command emitted yet and
nothing fixed on its ports. -/
@[reducible] def State.powerUp (c : Config) : State where
  cfg := c
  regs := Regs.reset c
  trace := []
  pending := []
  draws := 0

/-- The block right after reset, in the configuration `V` of the test vectors (notes/assumptions/1.md). -/
def State.reset : State := State.powerUp Config.vectors

end Sys2Proof.Machine
end

