-- ==== Sys2Proof/Machine/Operands.lean ====
section
/-! DEFINITION. The operands of the operations and the comparisons they make (spec/30_encoding.md R73): `now` as the
port carries it, hi-times against the thresholds as unsigned `TW`-bit values, positions against the bounds as signed
`PW`-bit values, and the code comparisons on `motorState`. -/

namespace Sys2Proof.Machine

variable {c : Config}

/-- The data operand `now[TW-1:0]` (R71), with no extension, scaling or offset (R73). A command written with a larger
number is not well-formed and no decoder yields it (notes/assumptions/5.md). -/
def nowOperand (c : Config) (now : Nat) : Word c.tw := BitVec.ofNat c.tw now

/-- Rise-armed: `fallTime != lastSeenFall`, so the next HIGH sample captures (spec/41_pwm_decoder.md R101, R109). -/
abbrev RiseArmed (r : Regs c) : Prop := r.fallTime ≠ r.lastSeenFall

/-- Fall-armed: `riseTime != lastSeenRise`, so the next LOW sample captures (R103, R109). -/
abbrev FallArmed (r : Regs c) : Prop := r.riseTime ≠ r.lastSeenRise

/-- `riseTime < fallTime`, unsigned (R105). -/
abbrev ValidPair (r : Regs c) : Prop := r.riseTime.toNat < r.fallTime.toNat

/-- `hiTime > HI_THRESH`, unsigned (R131). -/
abbrev AboveBand (r : Regs c) : Prop := r.hiTime.toNat > c.hiThreshW.toNat

/-- `hiTime < LO_THRESH`, unsigned (R132). -/
abbrev BelowBand (r : Regs c) : Prop := r.hiTime.toNat < c.loThreshW.toNat

/-- `LO_THRESH < hiTime < HI_THRESH`, unsigned (R133). -/
abbrev InDeadBand (r : Regs c) : Prop :=
  c.loThreshW.toNat < r.hiTime.toNat ∧ r.hiTime.toNat < c.hiThreshW.toNat

/-- `position > TACH_MIN`, signed (R131, R163). -/
abbrev AboveMin (r : Regs c) : Prop := r.position.toInt > c.tachMinW.toInt

/-- `position < TACH_MAX`, signed (R132, R162). -/
abbrev BelowMax (r : Regs c) : Prop := r.position.toInt < c.tachMaxW.toInt

/-- `motorState` holds the code of `m` (R74). -/
abbrev InState (m : MotorState) (r : Regs c) : Prop := r.motorState = m.code

/-- The state check of a SAMPLE step finds no reserved code (R78, R195). -/
abbrev CodeLegal (r : Regs c) : Prop := r.motorState ≠ reservedCode

end Sys2Proof.Machine
end

