-- ==== Sys2Proof/Machine/Flags.lean ====
section
/-! DEFINITION. The block's one status flag, `motionRequest` (spec/10_state.md R26): how decode sets it and how the
boundary halt clears it. RESET clears it as a register (R191); nothing else writes it. -/

namespace Sys2Proof.Machine

variable {c : Config}

/-- MOTION_REQUEST_SET (spec/41_pwm_decoder.md R107): set when `hiTime != 0`, else left as it was. -/
def motionRequestSet (r : Regs c) : Regs c :=
  if r.hiTime ≠ 0 then { r with motionRequest := true } else r

/-- The boundary halt's clear of the flag (spec/43_position_tracker.md R164), "the sole path by which MotionRequest is
ever cleared". -/
def motionRequestClear (r : Regs c) : Regs c := { r with motionRequest := false }

end Sys2Proof.Machine
end

