-- ==== Sys2Proof/Machine/Ops.lean ====
section
/-! DEFINITION. The shared operations: emitting a motor command, committing a step, and the check of the configuration
that comes before any step. The block has no memory and no register file to read or write (spec/20_memory.md R50,
spec/10_state.md R34), and takes no exception and returns from none (spec/60_exceptions.md R220, R228), so there is no
such operation. -/

namespace Sys2Proof.Machine

variable {c : Config}

/-- `emit Drive; motorDuty <- MOTORSPEED` (spec/43_position_tracker.md R161, spec/30_encoding.md R76): the command
carries the current `motorDir`, which is not written. -/
def emitDrive (w : Work c) : Work c where
  regs := { w.regs with motorDuty := c.motorSpeedW }
  trace := w.trace ++ [.drive w.regs.motorDir]

/-- `emit Halt; motorDuty <- 0` and nothing else (R166, R76). -/
def emitHalt (w : Work c) : Work c where
  regs := { w.regs with motorDuty := 0 }
  trace := w.trace ++ [.halt]

/-- The end of a step: every register takes its last value together, and the trace is the step's (R9, R53). -/
@[reducible] def State.commit (s : State) (w : Work s.cfg) : State := { s with regs := w.regs, trace := w.trace }

/-- A configuration that breaks R7 is refused before any step (R224; notes/assumptions/8.md). -/
def onWellFormed (s : State) (k : Host.Outcome State Fault Refusal) : Host.Outcome State Fault Refusal :=
  if s.cfg.wellFormed then k else .refused .illFormedConfiguration

end Sys2Proof.Machine
end

