-- ==== Sys2Proof/Machine/MotionStateMachine.lean ====
section
/-! DEFINITION. The Motion State Machine (spec/42_motion_state_machine.md): the gate, the four rules in their order,
and what each writes. -/

namespace Sys2Proof.Machine

variable {c : Config}

/-- The interpret sub-operations of spec/30_encoding.md R82. -/
inductive InterpretOp where
  | skipped
  | toExtend
  | toRetract
  | toStop
  | persist
deriving DecidableEq, Repr

/-- TO_EXTEND (R131): the direction bit is set. -/
def toExtend (r : Regs c) : Regs c := { r with motorState := MotorState.extend.code, motorDir := true }

/-- TO_RETRACT (R132): the direction bit is cleared. -/
def toRetract (r : Regs c) : Regs c := { r with motorState := MotorState.retract.code, motorDir := false }

/-- TO_STOP (R133): the direction bit is unchanged. -/
def toStop (r : Regs c) : Regs c := { r with motorState := MotorState.stop.code }

/-- The gate of R130, then the conditions of R131, R132 and R133 in that order, the first that holds, else R134
(R135). -/
def selectInterpret (r : Regs c) : InterpretOp :=
  if r.motionRequest = false then .skipped
  else if ¬ InState .extend r ∧ AboveBand r ∧ AboveMin r then .toExtend
  else if ¬ InState .retract r ∧ BelowBand r ∧ BelowMax r then .toRetract
  else if InDeadBand r then .toStop
  else .persist

/-- The effect of an interpret sub-operation (R130 to R134). -/
def runInterpret (op : InterpretOp) (r : Regs c) : Regs c :=
  match op with
  | .skipped => r
  | .toExtend => toExtend r
  | .toRetract => toRetract r
  | .toStop => toStop r
  | .persist => r

/-- The interpret stage with its gate (R130, R135). -/
def interpretStage (r : Regs c) : Regs c := runInterpret (selectInterpret r) r

end Sys2Proof.Machine
end

