-- ==== Sys2Proof/Machine/PositionTracker.lean ====
section
/-! DEFINITION. The Bounded Position Tracker and its dispatch of motor commands (spec/43_position_tracker.md). -/

namespace Sys2Proof.Machine

variable {c : Config}

/-- The apply sub-operations of spec/30_encoding.md R82; DRIVE (R161) comes first in the first three. -/
inductive ApplyOp where
  | countUp
  | countDown
  | boundaryHalt
  | halt
deriving DecidableEq, Repr

/-- COUNT_UP (R162). -/
def countUp (w : Work c) : Work c := { w with regs := { w.regs with position := w.regs.position + 1 } }

/-- COUNT_DOWN (R163). -/
def countDown (w : Work c) : Work c := { w with regs := { w.regs with position := w.regs.position - 1 } }

/-- BOUNDARY_HALT (R164): `position` and `motorDir` are unchanged. -/
def boundaryHalt (w : Work c) : Work c :=
  let h := emitHalt w
  { h with regs := motionRequestClear { h.regs with motorState := MotorState.stop.code } }

/-- The tests of apply, in their order (R160). -/
def selectApply (r : Regs c) : ApplyOp :=
  if InState .stop r then .halt
  else if InState .retract r ∧ BelowMax r then .countUp
  else if InState .extend r ∧ AboveMin r then .countDown
  else .boundaryHalt

/-- The effect of an apply sub-operation: DRIVE before the limit check's outcome, or HALT alone (R161 to R165). -/
def runApply (op : ApplyOp) (w : Work c) : Work c :=
  match op with
  | .countUp => countUp (emitDrive w)
  | .countDown => countDown (emitDrive w)
  | .boundaryHalt => boundaryHalt (emitDrive w)
  | .halt => emitHalt w

/-- The apply stage (R160), on the registers as interpret left them and with an empty trace. -/
def applyStage (r : Regs c) : Work c := runApply (selectApply r) ⟨r, []⟩

end Sys2Proof.Machine
end

