-- ==== Sys2Proof/Machine/PwmDecoder.lean ====
section
/-! DEFINITION. The PWM Decoder (spec/41_pwm_decoder.md): capture, hi-time, motion request. Each part of the stage is
selected by a test (spec/30_encoding.md R82) and has an effect of its own. -/

namespace Sys2Proof.Machine

variable {c : Config}

/-- The capture sub-operations of R82. -/
inductive CaptureOp where
  | captureRise
  | highNoCapture
  | captureFall
  | lowNoCapture
deriving DecidableEq, Repr

/-- The hi-time sub-operations of R82. -/
inductive HitimeOp where
  | update
  | retain
deriving DecidableEq, Repr

/-- CAPTURE_RISE (R101): the shadow gets the old `fallTime`; `now` is stored exactly. -/
def captureRise (now : Word c.tw) (r : Regs c) : Regs c :=
  { r with lastSeenFall := r.fallTime, riseTime := now }

/-- CAPTURE_FALL (R103), the mirror of R101. -/
def captureFall (now : Word c.tw) (r : Regs c) : Regs c :=
  { r with lastSeenRise := r.riseTime, fallTime := now }

/-- HITIME_UPDATE (R105). The rule selects it only where `riseTime < fallTime`, so the difference never wraps (R8). -/
def hitimeUpdate (r : Regs c) : Regs c := { r with hiTime := r.fallTime - r.riseTime }

/-- Which capture the level and the arming select (R82, R101 to R104). -/
def selectCapture (level : Bool) (r : Regs c) : CaptureOp :=
  match level with
  | true => if RiseArmed r then .captureRise else .highNoCapture
  | false => if FallArmed r then .captureFall else .lowNoCapture

/-- The effect of a capture sub-operation on the registers (R101 to R104). -/
def runCapture (op : CaptureOp) (now : Word c.tw) (r : Regs c) : Regs c :=
  match op with
  | .captureRise => captureRise now r
  | .highNoCapture => r
  | .captureFall => captureFall now r
  | .lowNoCapture => r

/-- Part (a) of decode (R100). -/
def captureStage (level : Bool) (now : Word c.tw) (r : Regs c) : Regs c :=
  runCapture (selectCapture level r) now r

/-- Whether the hi-time is updated or retained (R82, R105, R106), on the timestamps as the capture left them. -/
def selectHitime (r : Regs c) : HitimeOp := if ValidPair r then .update else .retain

/-- The effect of a hi-time sub-operation (R105, R106). -/
def runHitime (op : HitimeOp) (r : Regs c) : Regs c :=
  match op with
  | .update => hitimeUpdate r
  | .retain => r

/-- Part (b) of decode (R100). -/
def hitimeStage (r : Regs c) : Regs c := runHitime (selectHitime r) r

/-- The decode stage (R100): capture, then hi-time, then motion request, each reading what the one before left. -/
def decodeStage (level : Bool) (now : Word c.tw) (r : Regs c) : Regs c :=
  motionRequestSet (hitimeStage (captureStage level now r))

end Sys2Proof.Machine
end

