-- ==== Sys2Proof/Machine/Control.lean ====
section
/-! DEFINITION. The four commands (spec/44_control_step.md R191 to R195): the meaning of every constructor of `Instr`,
and the sub-operations a SAMPLE step runs (spec/30_encoding.md R82). -/

namespace Sys2Proof.Machine

variable {c : Config}

/-- The three stages of a SAMPLE step, in order, each reading what the one before wrote (R195, R262). -/
def sampleWork (level : Bool) (now : Word c.tw) (r : Regs c) : Work c :=
  applyStage (interpretStage (decodeStage level now r))

/-- `step_sample(level, now)` (R195): the reserved-state check comes first (R227), then decode, interpret, apply. -/
def stepSample (level : Bool) (now : Nat) (s : State) : Host.Outcome State Fault Refusal :=
  if CodeLegal s.regs then .next (s.commit (sampleWork level (nowOperand s.cfg now) s.regs))
  else .fault .reservedMotorState

/-- RESET (R191): every register to its reset value, an empty trace. It takes any state, the reserved code too. -/
def execRst (s : State) : Host.Outcome State Fault Refusal :=
  onWellFormed s (.next (s.commit ⟨Regs.reset s.cfg, []⟩))

/-- HOLD (R192): no register changes, an empty trace. -/
def execHold (s : State) : Host.Outcome State Fault Refusal :=
  onWellFormed s (.next (s.commit ⟨s.regs, []⟩))

/-- SAMPLE_LOW (R193). -/
def execLo (now : Nat) (s : State) : Host.Outcome State Fault Refusal :=
  onWellFormed s (stepSample false now s)

/-- SAMPLE_HIGH (R194). -/
def execHi (now : Nat) (s : State) : Host.Outcome State Fault Refusal :=
  onWellFormed s (stepSample true now s)

/-- The sub-operations of R82, by stage. -/
inductive SubOp where
  | capture (op : CaptureOp)
  | hitime (op : HitimeOp)
  | motionRequestSet
  | interpret (op : InterpretOp)
  | drive
  | apply (op : ApplyOp)
deriving DecidableEq, Repr

/-- The sub-operations a SAMPLE step runs, in order (R82): "No encoding selects them; `level` and the registers do". -/
def subOperations (level : Bool) (now : Word c.tw) (r : Regs c) : List SubOp :=
  let captured := captureStage level now r
  let timed := hitimeStage captured
  let decoded := motionRequestSet timed
  let interpreted := interpretStage decoded
  [.capture (selectCapture level r), .hitime (selectHitime captured)]
    ++ (if timed.hiTime ≠ 0 then [.motionRequestSet] else [])
    ++ [.interpret (selectInterpret decoded)]
    ++ (if InState .stop interpreted then [] else [.drive])
    ++ [.apply (selectApply interpreted)]

end Sys2Proof.Machine
end

