-- ==== Sys2Proof/Machine/Dispatch.lean ====
section
/-! DEFINITION. One arm per command (spec/opcode_table.json). -/

namespace Sys2Proof.Machine

def exec (i : Instr) (s : State) : Host.Outcome State Fault Refusal :=
  match i with
  | .rst => Sys2Proof.Machine.execRst s
  | .hold => Sys2Proof.Machine.execHold s
  | .lo now => Sys2Proof.Machine.execLo now s
  | .hi now => Sys2Proof.Machine.execHi now s

end Sys2Proof.Machine
end

