-- ==== Sys2Proof/Machine/Fetch.lean ====
section
/-! DEFINITION. How a step gets its control word and its `now` value (spec/44_control_step.md R190, R199): the next
activation the host has fixed; where it has fixed none, any value of the ports (spec/93_implementation_defined.md U6,
U7, U8). The block has no program store and no program counter (spec/20_memory.md R57, spec/10_state.md R33). -/

namespace Sys2Proof.Machine

/-- The ports at a step for which the host has fixed nothing: free values (notes/assumptions/2.md). -/
def freeActivation (tw n : Nat) : Activation tw := ⟨Config.freeControl n, BitVec.ofNat tw (Config.freeNow n)⟩

/-- The activation of the coming step. -/
def activation (s : State) : Activation s.cfg.tw :=
  match s.pending with
  | a :: _ => a
  | [] => freeActivation s.cfg.tw s.draws

/-- The state with the coming step's activation taken: a fixed one is used up, a free one is drawn. -/
def consume (s : State) : State :=
  match s.pending with
  | _ :: rest => { s with pending := rest }
  | [] => { s with draws := s.draws + 1 }

/-- `s` with an activation put before all that the host has already fixed. -/
@[reducible] def feed (s : State) (a : Activation s.cfg.tw) : State := { s with pending := a :: s.pending }

end Sys2Proof.Machine
end

