-- ==== Sys2Proof/Machine/Step.lean ====
section
/-! DEFINITION. One activation of the block (spec/44_control_step.md R190): the command its ports select, executed. -/

namespace Sys2Proof.Machine

/-- One step: exactly one control word and one `now` value, the one command they select (R190). -/
def step (s : State) : Host.Outcome State Fault Refusal :=
  exec (decodeActivation (activation s)) (consume s)

/-- `s` with the instruction whose `nbits` bits are `w` on the ports of the very next step. -/
def State.withFetchWord (s : State) (nbits w : Nat) : State :=
  feed s (Activation.ofWord s.cfg.tw (w % 2 ^ nbits))

end Sys2Proof.Machine
end

