-- ==== Sys2Proof/Machine/Notation.lean ====
section
/-! DEFINITION. The text of the command notation (spec/30_encoding.md R80, R81): reading a line, and writing the
encoding of a command as `CTRL:now`. Texts are lists of characters. Affects no command's effect. -/

namespace Sys2Proof.Machine

/-- Why a line of text is no line of the notation. Raised by `parseLine` only; safe, the block never sees text. -/
inductive LineReject where
  /-- nothing stands on the line but blanks and a comment -/
  | noCommand
  /-- the words are none of the forms of R80 and R81 -/
  | unknownForm
  /-- a number is neither decimal nor `0x` hexadecimal -/
  | malformedNumber
  /-- a number is above `2^TW - 1` -/
  | numberTooLarge
deriving DecidableEq, Repr

/-- The value of a decimal or hexadecimal digit. -/
def digitValue (ch : Char) : Option Nat :=
  if '0' ≤ ch ∧ ch ≤ '9' then some (ch.toNat - '0'.toNat)
  else if 'A' ≤ ch ∧ ch ≤ 'F' then some (ch.toNat - 'A'.toNat + 10)
  else if 'a' ≤ ch ∧ ch ≤ 'f' then some (ch.toNat - 'a'.toNat + 10)
  else none

/-- Digits in a base, most significant first, continuing from `acc`. -/
def parseDigits (base : Nat) : List Char → Nat → Option Nat
  | [], acc => some acc
  | ch :: rest, acc =>
    match digitValue ch with
    | some d => if d < base then parseDigits base rest (acc * base + d) else none
    | none => none

/-- "A decimal or `0x` hexadecimal number" (R80). -/
def parseNumber : List Char → Option Nat
  | [] => none
  | ['0', 'x'] => none
  | '0' :: 'x' :: digits => parseDigits 16 digits 0
  | digits => parseDigits 10 digits 0

/-- The word read so far, if any. -/
def flushWord (word : List Char) : List (List Char) := if word = [] then [] else [word]

/-- The words of a line: blanks separate them, a comma stands for itself, "text after `;` is a comment" (R80;
notes/assumptions/6.md for the blanks). -/
def lineWords : List Char → List Char → List (List Char)
  | [], word => flushWord word
  | ch :: rest, word =>
    if ch = ';' then flushWord word
    else if ch = ' ' ∨ ch = '\t' then flushWord word ++ lineWords rest []
    else if ch = ',' then flushWord word ++ [','] :: lineWords rest []
    else lineWords rest (word ++ [ch])

/-- A number of the notation, which must lie in `0 .. 2^TW - 1` (R80). -/
def parseOperand (tw : Nat) (word : List Char) : Except LineReject Nat :=
  match parseNumber word with
  | none => .error .malformedNumber
  | some n => if n < 2 ^ tw then .ok n else .error .numberTooLarge

/-- A line of the notation from its words (R80, R81). -/
def parseWords (tw : Nat) : List (List Char) → Except LineReject Line
  | [] => .error .noCommand
  | [['R', 'S', 'T']] => .ok (.command .rst)
  | [['H', 'O', 'L', 'D']] => .ok (.command .hold)
  | [['L', 'O'], n] => (parseOperand tw n).map fun now => .command (.lo now)
  | [['H', 'I'], n] => (parseOperand tw n).map fun now => .command (.hi now)
  | [['P', 'U', 'L', 'S', 'E'], a, [','], b] =>
    match parseOperand tw a, parseOperand tw b with
    | .ok rise, .ok fall => .ok (.pulse rise fall)
    | .error e, _ => .error e
    | .ok _, .error e => .error e
  | _ => .error .unknownForm

/-- A line of the notation (R80, R81). -/
def parseLine (tw : Nat) (line : List Char) : Except LineReject Line := parseWords tw (lineWords line [])

/-- A hexadecimal digit, capitals as in the spec's example. -/
def hexDigit (n : Nat) : Char := if n < 10 then Char.ofNat ('0'.toNat + n) else Char.ofNat ('A'.toNat + (n - 10))

/-- The low `count` hexadecimal digits of a number, most significant first. -/
def hexText : Nat → Nat → List Char
  | 0, _ => []
  | count + 1, n => hexText count (n / 16) ++ [hexDigit (n % 16)]

/-- A bit of the control word as text. -/
def bitText (b : Bool) : Char := if b then '1' else '0'

/-- The encoding of a command written `CTRL:now`, for example `011:0x0064` for `HI 100` (R80). As many hexadecimal
digits as `TW` bits fill (DEDUCED from the examples, notes/assumptions/6.md). -/
def encodingText (tw : Nat) (i : Instr) : List Char :=
  let a := encode tw i
  [bitText (Control.rst a.ctrl), bitText (Control.en a.ctrl), bitText (Control.level a.ctrl), ':', '0', 'x']
    ++ hexText ((tw + 3) / 4) a.now.toNat

end Sys2Proof.Machine
end

