-- ==== Sys2Proof/Machine/Outputs.lean ====
section
/-! DEFINITION. The output ports (spec/30_encoding.md R70, R76, R83; spec/44_control_step.md R196): functions of the
registers and of the step's command trace. Reading one has no effect (spec/10_state.md R36). -/

namespace Sys2Proof.Machine

variable {c : Config}

/-- `motor_dir` (R70). -/
def motorDirPort (r : Regs c) : Word 1 := BitVec.ofBool r.motorDir

/-- `motor_duty` (R70). -/
def motorDutyPort (r : Regs c) : Word c.dw := r.motorDuty

/-- `cmd_count`: the number of motor commands the step emitted (R70). -/
def cmdCount (trace : List MotorCmd) : Word 2 := BitVec.ofNat 2 trace.length

/-- The kind bit of a command: 1 Drive, 0 Halt (R70). -/
def MotorCmd.kind : MotorCmd → Bool
  | .drive _ => true
  | .halt => false

/-- The kind bit of command `n` of a trace; 0 where there is no such command (R70). -/
def kindBit (cmds : List MotorCmd) (n : Nat) : Bool :=
  match cmds[n]? with
  | some cmd => cmd.kind
  | none => false

/-- `cmd_kind`: bit `i` is command `i` of the step (R70). -/
def cmdKind (trace : List MotorCmd) : Word 2 := BitVec.ofBool (kindBit trace 1) ++ BitVec.ofBool (kindBit trace 0)

/-- `status`, of the width of R70 (R83): every register, the last field of the table in the most significant bits. -/
def statusPort (r : Regs c) : Word (4 + c.dw + c.pw + 5 * c.tw) :=
  (r.lastSeenFall ++ r.lastSeenRise ++ r.fallTime ++ r.riseTime ++ r.hiTime ++ r.position ++ r.motorDuty
    ++ BitVec.ofBool r.motorDir ++ BitVec.ofBool r.motionRequest ++ r.motorState).cast
    (by omega)

/-- What an observer of the output ports sees after a step, each port as the number it carries (R198). -/
structure Outputs where
  motorDir : Nat
  motorDuty : Nat
  cmdCount : Nat
  cmdKind : Nat
  status : Nat
deriving DecidableEq, Repr

/-- The output ports at the end of the most recent step (R196). -/
def outputs (s : State) : Outputs where
  motorDir := (motorDirPort s.regs).toNat
  motorDuty := (motorDutyPort s.regs).toNat
  cmdCount := (cmdCount s.trace).toNat
  cmdKind := (cmdKind s.trace).toNat
  status := (statusPort s.regs).toNat

end Sys2Proof.Machine
end

