-- ==== Sys2Proof/Safety.lean ====
section
/-! DEFINITION. The terms in which claims about the block are stated: runs and their observation
(spec/44_control_step.md R198), the invariant of the reachable states, the decoder's lock-up
(spec/41_pwm_decoder.md R110), and the named premises about the timer (spec/60_exceptions.md R233). -/

namespace Sys2Proof.Machine

/-- A finite run: the commands one after another, to the first stop (R198). -/
def runCommands : List Instr → State → Host.Outcome State Fault Refusal
  | [], s => .next s
  | i :: rest, s =>
    match exec i s with
    | .next t => runCommands rest t
    | .fault f => .fault f
    | .refused r => .refused r

/-- The observation of a run: the output ports after each step (R198). -/
def observe : List Instr → State → List Outputs
  | [], _ => []
  | i :: rest, s =>
    match exec i s with
    | .next t => outputs t :: observe rest t
    | .fault _ => []
    | .refused _ => []

/-- `s` with a program of commands fixed for the coming steps, before anything fixed already. -/
@[reducible] def State.withProgram (s : State) (program : List Instr) : State :=
  { s with pending := program.map (encode s.cfg.tw) ++ s.pending }

/-- A SAMPLE step finds nothing to stop on: a well-formed configuration (R7) and no reserved code (R195). -/
abbrev Ready (s : State) : Prop := s.cfg.wellFormed = true ∧ CodeLegal s.regs

/-- The command answers a next state, which holds the registers and the trace of some `w` with `P w`, and in which
the configuration and the host's side (`pending`, `draws`) are unchanged. -/
def Completes (i : Instr) (s : State) (P : Work s.cfg → Prop) : Prop :=
  ∃ w : Work s.cfg, exec i s = .next (s.commit w) ∧ P w

/-- `motionRequest` as decode left it in a step from `r` whose result is `r'`: set already, or set because the hi-time
is not 0 (R107); nothing after decode writes `hiTime`. -/
abbrev Requested {c : Config} (r r' : Regs c) : Prop := r.motionRequest = true ∨ r'.hiTime ≠ 0

/-- The trace of a boundary-halt step (R164). -/
def HaltedAtBoundary (trace : List MotorCmd) : Prop := ∃ dir, trace = [.drive dir, .halt]

/-- What apply makes of a motor state that interpret left as the step found it in `r` (R160 to R165). -/
structure AppliesHeldState {c : Config} (r : Regs c) (w : Work c) : Prop where
  /-- HALT (R165) -/
  halt : InState .stop r → w.trace = [.halt] ∧ w.regs.motorDuty = 0 ∧ w.regs.position = r.position ∧ InState .stop w.regs
  /-- DRIVE, COUNT_UP (R161, R162) -/
  countUp : InState .retract r → BelowMax r → w.trace = [.drive r.motorDir] ∧ w.regs.motorDuty = c.motorSpeedW
    ∧ w.regs.position = r.position + 1 ∧ InState .retract w.regs
  /-- DRIVE, COUNT_DOWN (R161, R163) -/
  countDown : InState .extend r → AboveMin r → w.trace = [.drive r.motorDir] ∧ w.regs.motorDuty = c.motorSpeedW
    ∧ w.regs.position = r.position - 1 ∧ InState .extend w.regs
  /-- DRIVE, BOUNDARY_HALT (R161, R164) -/
  boundaryHalt : InState .retract r ∧ ¬ BelowMax r ∨ InState .extend r ∧ ¬ AboveMin r →
    w.trace = [.drive r.motorDir, .halt] ∧ w.regs.motorDuty = 0 ∧ w.regs.position = r.position
      ∧ InState .stop w.regs ∧ w.regs.motionRequest = false
  /-- apply never writes the direction bit (R161) -/
  dirKept : w.regs.motorDir = r.motorDir

/-- The traces a step can show (R76): `[]`, `[Halt]`, `[Drive]`, `[Drive, Halt]`. -/
def TraceLegal (trace : List MotorCmd) : Prop :=
  trace = [] ∨ trace = [.halt] ∨ ∃ dir, trace = [.drive dir] ∨ trace = [.drive dir, .halt]

/-- Neither edge is armed, so no SAMPLE step captures (R109, R110). -/
def Locked {c : Config} (r : Regs c) : Prop := ¬ RiseArmed r ∧ ¬ FallArmed r

/-- Both hold the same four timestamps. -/
def SameTimestamps {c : Config} (r r' : Regs c) : Prop :=
  r'.riseTime = r.riseTime ∧ r'.fallTime = r.fallTime
    ∧ r'.lastSeenRise = r.lastSeenRise ∧ r'.lastSeenFall = r.lastSeenFall

/-- What holds of the registers between any two steps of a run from power-up. -/
structure RegsInv {c : Config} (r : Regs c) : Prop where
  /-- the reserved code is never held (R78) -/
  codeLegal : CodeLegal r
  /-- `TACH_MIN <= position <= TACH_MAX` (R28, R167) -/
  inBounds : c.tachMin ≤ r.position.toInt ∧ r.position.toInt ≤ c.tachMax
  /-- "at most one of the two is armed at any time" (R109) -/
  oneArmed : ¬ (RiseArmed r ∧ FallArmed r)
  /-- where a rise and a later fall are held, `hiTime` is their difference (R105) -/
  hiTimeOfPair : ValidPair r → r.hiTime = r.fallTime - r.riseTime
  /-- the flag is set only when a hi-time has been computed (R26, R107) -/
  requestComputed : r.motionRequest = true → r.hiTime ≠ 0
  /-- the motor moves only on request (R130, R164) -/
  movingRequested : ¬ InState .stop r → r.motionRequest = true
  /-- the duty is `MOTORSPEED` while moving and 0 while stopped (R161, R166) -/
  dutyOfState : r.motorDuty = if InState .stop r then 0 else c.motorSpeedW
  /-- EXTEND is entered with the direction bit set (R131), RETRACT with it cleared (R132) -/
  dirOfState : (InState .extend r → r.motorDir = true) ∧ (InState .retract r → r.motorDir = false)

/-- The invariant of the machine: a well-formed configuration (R7), the registers' invariant, a legal trace (R76). -/
structure State.Inv (s : State) : Prop where
  config : s.cfg.wellFormed = true
  regs : RegsInv s.regs
  trace : TraceLegal s.trace

/-- `TimerLift` (R233): `T` is non-decreasing and `now k = T k mod 2^TW`, for the `k`-th SAMPLE step. -/
def TimerLift (tw : Nat) (T : Nat → Nat) (now : Nat → Word tw) : Prop :=
  (∀ k, T k ≤ T (k + 1)) ∧ ∀ k, (now k).toNat = T k % 2 ^ tw

/-- `NoWrap(i, j)` (R233): the timer did not wrap between steps `i` and `j`. -/
def NoWrap (tw : Nat) (T : Nat → Nat) (i j : Nat) : Prop := T i / 2 ^ tw = T j / 2 ^ tw

/-- `Advances(i, j)` (R233): `0 < T_j - T_i < 2^TW`. -/
def Advances (tw : Nat) (T : Nat → Nat) (i j : Nat) : Prop := T i < T j ∧ T j < T i + 2 ^ tw

end Sys2Proof.Machine
end

