-- ==== Sys2Proof/Certificates/Slice0/Obligations.lean ====
section
/-! DEFINITION. The statements for the provers. Almost every rule of spec/ that fixes a width, a code or a value carries a
mark "[decision: ...]" (the spec's own choice) or "[derived: ...]"; a statement that rests on such a rule is listed as
derived and its docstring names the mark. `Completes i s P` (Safety.lean) says that the command answers a next state, with
`P` of its registers and trace and with the configuration and the host's side unchanged. -/

open Sys2Proof Sys2Proof.Machine

/-! ## Encodings -/

/-- R72 (decision D3): each of the 8 control words is selected by exactly one row of the opcode table, whose command the
decoder gives, whatever `now` and the bits marked x are. -/
def Obligations.EveryControlWordSelectsOneCommand : Prop :=
  ∀ (tw : Nat) (w : Control) (now : Word tw),
    (opcodeTable.filter (·.selects w)).map (·.command now.toNat) = [decodeActivation ⟨w, now⟩]

/-- Words written out bit by bit from R72 and from the encodings of spec/95_test_vectors.md P1, C-1, C-2 and C-5
(decision D3); the last clauses lay `now` above the control word (the model's choice, notes/assumptions/3.md). -/
def Obligations.SpecWordsDecode : Prop :=
  decodeActivation (⟨0b011#3, 0x0064#16⟩ : Activation 16) = .hi 100
    ∧ decodeActivation (⟨0b010#3, 0x0A28#16⟩ : Activation 16) = .lo 2600
    ∧ decodeActivation (⟨0b100#3, 0x1234#16⟩ : Activation 16) = .rst
    ∧ decodeActivation (⟨0b111#3, 0xFFFF#16⟩ : Activation 16) = .rst
    ∧ decodeActivation (⟨0b000#3, 0x0000#16⟩ : Activation 16) = .hold
    ∧ decodeActivation (⟨0b001#3, 0x0032#16⟩ : Activation 16) = .hold
    ∧ decodeTableWord 8 0b010 = some (.lo 0)
    ∧ decodeTableWord 24 0b0000000001100100011 = some (.hi 100)

/-- R71, R72, R80 (decisions D3, D23): decoding the word of a well-formed command gives the command, its `now` at every
value the port carries. The word's layout is the model's choice (notes/assumptions/3.md). -/
def Obligations.DecodeOfEncodedCommand : Prop :=
  ∀ (tw : Nat) (i : Instr), i.WellFormed tw → decodeWord tw (encodeWord tw i) = .ok i

/-- R71, R72 (decision D3): a word that decodes to a SAMPLE command is that command's word; what the decoder gives is
always well-formed; and the decoder rejects exactly the words with bits above `TW + 3` (notes/assumptions/3.md). -/
def Obligations.EncodeOfDecodedWord : Prop :=
  ∀ (tw w : Nat),
    (∀ i, decodeWord tw w = .ok i → i.WellFormed tw)
      ∧ (∀ level now, decodeWord tw w = .ok (.sample level now) → encodeWord tw (.sample level now) = w)
      ∧ (decodeWord tw w = .error .bitsAboveNow ↔ 2 ^ (tw + 3) ≤ w)

/-- R80, R81 (decision D23): lines of the notation and their encodings, as the spec writes them. -/
def Obligations.NotationOfSpecLines : Prop :=
  parseLine 16 ['H', 'I', ' ', '1', '0', '0'] = .ok (.command (.hi 100))
    ∧ encodingText 16 (.hi 100) = ['0', '1', '1', ':', '0', 'x', '0', '0', '6', '4']
    ∧ parseLine 16 ['R', 'S', 'T', ' ', ';', ' ', 'x'] = .ok (.command .rst)
    ∧ parseLine 16 ['L', 'O', ' ', '0', 'x', '0', 'A', '2', '8'] = .ok (.command (.lo 2600))
    ∧ parseLine 16 ['H', 'O', 'L', 'D'] = .ok (.command .hold)
    ∧ parseLine 16 ['P', 'U', 'L', 'S', 'E', ' ', '1', ',', ' ', '2'] = .ok (.pulse 1 2)
    ∧ parseLine 16 ['H', 'I', ' ', '6', '5', '5', '3', '6'] = .error .numberTooLarge
    ∧ (Line.pulse 1 2).expand = [.hi 1, .lo 2]

/-! ## The configuration -/

/-- R6, R7 (decision D24): a configuration is well-formed exactly when it meets the constraints and every value it names
fits its width, that is, reads back from its width as itself; `V` is, and those of the vectors C-9 and C-10 are not. -/
def Obligations.WellFormedMeansConstraintsAndFit : Prop :=
  (∀ c : Config, c.wellFormed = true ↔
      2 ≤ c.tw ∧ 2 ≤ c.pw ∧ 1 ≤ c.dw ∧ c.sentinel ≠ 0 ∧ c.loThresh + 2 ≤ c.hiThresh ∧ c.tachMin ≤ 0 ∧ 0 ≤ c.tachMax
        ∧ c.sentinelW.toNat = c.sentinel ∧ c.hiThreshW.toNat = c.hiThresh ∧ c.loThreshW.toNat = c.loThresh
        ∧ c.tachMinW.toInt = c.tachMin ∧ c.tachMaxW.toInt = c.tachMax ∧ c.motorSpeedW.toNat = c.motorSpeed)
    ∧ Config.vectors.wellFormed = true
    ∧ Config.wellFormed { Config.vectors with hiThresh := 1001 } = false
    ∧ Config.wellFormed { Config.vectors with sentinel := 0 } = false

/-! ## The step -/

/-- R190, R199 (decisions D1, D2; U6 to U8): a step executes the command its ports select. The ports carry what the
host has fixed next, and any value where it has fixed none (the model's form of that: notes/assumptions/2.md). -/
def Obligations.StepRunsTheSelectedCommand : Prop :=
  (∀ (s : State) (a : Activation s.cfg.tw) (rest : List (Activation s.cfg.tw)), s.pending = a :: rest →
      step s = exec (decodeActivation a) { s with pending := rest })
    ∧ ∀ s : State, s.pending = [] →
      step s = exec (decodeActivation (⟨Config.freeControl s.draws, BitVec.ofNat s.cfg.tw (Config.freeNow s.draws)⟩ :
        Activation s.cfg.tw)) { s with draws := s.draws + 1 }

/-- A decodable word put on the ports is what the very next step runs, on the state it was put on (the model's word
layout, notes/assumptions/3.md). -/
def Obligations.FetchWordRunsNext : Prop :=
  ∀ (s : State) (nbits w : Nat) (i : Instr), w < 2 ^ nbits → decodeWord s.cfg.tw w = .ok i →
    step (s.withFetchWord nbits w) = exec i s

/-- R198 (decision D28), for every program: the machine's run over a program fixed on its ports is the sequence of the
program's commands (the ports' queue is the model's, notes/assumptions/2.md). -/
def Obligations.RunOfAProgramIsItsCommands : Prop :=
  ∀ (s : State) (program : List Instr), (∀ i ∈ program, i.WellFormed s.cfg.tw) →
    Host.Core.run core program.length (s.withProgram program) = runCommands program s

/-- R191, R192 (decision D3): RESET ignores `en`, `level` and `now`, and HOLD ignores `level` and `now`: a step cannot
tell two such inputs apart. -/
def Obligations.ResetAndHoldIgnoreTheirInputs : Prop :=
  ∀ (s : State) (a b : Activation s.cfg.tw),
    (Control.rst a.ctrl = true ∧ Control.rst b.ctrl = true)
      ∨ (Control.rst a.ctrl = false ∧ Control.en a.ctrl = false ∧ Control.rst b.ctrl = false ∧ Control.en b.ctrl = false) →
    step (feed s a) = step (feed s b)

/-- R190 (decisions D1, D21), "A step always completes": from a well-formed configuration and a legal code a step answers
a next state whatever the ports carry, fixed or free. -/
def Obligations.EveryReadyStepCompletes : Prop :=
  ∀ s : State, Ready s → ∃ t, step s = .next t

/-- R220, R223, R224, R195 (decisions D10, D24): a command stops exactly where the spec says: refused if and only if the
configuration is ill-formed, a fault if and only if a SAMPLE finds the reserved code. That the code is held raw and that
each command makes the configuration check, before any other, is the model's form (notes/assumptions/4.md, 8.md). -/
def Obligations.CommandsStopExactlyWhereSaid : Prop :=
  ∀ (i : Instr) (s : State),
    (exec i s = .refused .illFormedConfiguration ↔ ¬ s.cfg.wellFormed = true)
      ∧ (exec i s = .fault .reservedMotorState ↔
          s.cfg.wellFormed = true ∧ s.regs.motorState = 0b11#2 ∧ ∃ level now, i = .sample level now)
      ∧ ((∃ t, exec i s = .next t) ↔
          s.cfg.wellFormed = true ∧ (s.regs.motorState ≠ 0b11#2 ∨ i = .rst ∨ i = .hold))

/-! ## RESET, HOLD, power-up -/

/-- R191 (decisions D3, D6, D7, D11, D12): RESET writes every register, whatever the state, the reserved code too. -/
def Obligations.ResetWritesEveryRegister : Prop :=
  ∀ s : State, s.cfg.wellFormed = true → exec .rst s = .next (s.commit
    { regs := { riseTime := BitVec.ofNat s.cfg.tw s.cfg.sentinel, fallTime := 0,
                lastSeenRise := BitVec.ofNat s.cfg.tw s.cfg.sentinel,
                lastSeenFall := BitVec.ofNat s.cfg.tw s.cfg.sentinel, hiTime := 0, motionRequest := false,
                motorState := 0b00#2, position := 0, motorDir := false, motorDuty := 0 },
      trace := [] })

/-- R192 (decision D3): HOLD changes no register and shows an empty trace. -/
def Obligations.HoldChangesNoRegister : Prop :=
  ∀ s : State, s.cfg.wellFormed = true → exec .hold s = .next (s.commit ⟨s.regs, []⟩)

/-- R250 (decision D25): RESET from any state gives the power-up state of the same configuration, but for the host's side
of the ports; the model's reset state is the power-up state of the vector configuration (notes/assumptions/1.md), and the
empty trace at power-up is deduced (notes/assumptions/7.md). -/
def Obligations.ResetGivesThePowerUpState : Prop :=
  (∀ s : State, s.cfg.wellFormed = true →
      exec .rst s = .next { State.powerUp s.cfg with pending := s.pending, draws := s.draws })
    ∧ State.reset = State.powerUp Config.vectors

/-- R32, R229, R251 (decision D20): no step writes the configuration. -/
def Obligations.ConfigurationIsNeverWritten : Prop :=
  ∀ s t : State, step s = .next t → t.cfg = s.cfg

/-! ## PWM Decoder -/

/-- R101: the first HIGH sample after a fall records the shadow and captures the rise. -/
def Obligations.FirstHighSampleCapturesRise : Prop :=
  ∀ (s : State) (now : Nat), Ready s → RiseArmed s.regs →
    Completes (.hi now) s fun w =>
      w.regs.lastSeenFall = s.regs.fallTime ∧ w.regs.riseTime = BitVec.ofNat s.cfg.tw now
        ∧ w.regs.fallTime = s.regs.fallTime ∧ w.regs.lastSeenRise = s.regs.lastSeenRise

/-- R102: a HIGH sample whose shadow equals the live value changes no timestamp. -/
def Obligations.FurtherHighSampleCapturesNothing : Prop :=
  ∀ (s : State) (now : Nat), Ready s → s.regs.fallTime = s.regs.lastSeenFall →
    Completes (.hi now) s fun w => SameTimestamps s.regs w.regs

/-- R103: the first LOW sample after a rise records the shadow and captures the fall. -/
def Obligations.FirstLowSampleCapturesFall : Prop :=
  ∀ (s : State) (now : Nat), Ready s → FallArmed s.regs →
    Completes (.lo now) s fun w =>
      w.regs.lastSeenRise = s.regs.riseTime ∧ w.regs.fallTime = BitVec.ofNat s.cfg.tw now
        ∧ w.regs.riseTime = s.regs.riseTime ∧ w.regs.lastSeenFall = s.regs.lastSeenFall

/-- R104 (decision D6): a LOW sample whose shadow equals the live value changes no timestamp. -/
def Obligations.FurtherLowSampleCapturesNothing : Prop :=
  ∀ (s : State) (now : Nat), Ready s → s.regs.riseTime = s.regs.lastSeenRise →
    Completes (.lo now) s fun w => SameTimestamps s.regs w.regs

/-- R105: whenever a rise and a later fall are held after the capture, the hi-time is their difference, in
`1 .. 2^TW - 1`. -/
def Obligations.HiTimeUpdatedFromValidPair : Prop :=
  ∀ (s : State) (level : Bool) (now : Nat), Ready s →
    Completes (.sample level now) s fun w => w.regs.riseTime.toNat < w.regs.fallTime.toNat →
      w.regs.hiTime.toNat = w.regs.fallTime.toNat - w.regs.riseTime.toNat ∧ 1 ≤ w.regs.hiTime.toNat

/-- R106: otherwise the previous hi-time is retained. -/
def Obligations.HiTimeRetainedWithoutValidPair : Prop :=
  ∀ (s : State) (level : Bool) (now : Nat), Ready s →
    Completes (.sample level now) s fun w => w.regs.fallTime.toNat ≤ w.regs.riseTime.toNat →
      w.regs.hiTime = s.regs.hiTime

/-- R107, R26, R164 (decision D13): after a SAMPLE step the flag is what it was, or set by a hi-time that is not 0, but
for a boundary halt, which clears it. -/
def Obligations.MotionRequestFollowsHiTime : Prop :=
  ∀ (s : State) (level : Bool) (now : Nat), Ready s →
    Completes (.sample level now) s fun w =>
      (HaltedAtBoundary w.trace → w.regs.motionRequest = false)
        ∧ (¬ HaltedAtBoundary w.trace →
            w.regs.motionRequest = (s.regs.motionRequest || decide (w.regs.hiTime ≠ 0)))

/-- R108 (derived there): a hi-time that is not 0 stays so until RESET, and every SAMPLE step then ends with the flag set
or in a boundary halt. -/
def Obligations.HiTimeStaysNonZero : Prop :=
  ∀ s : State, Ready s → s.regs.hiTime ≠ 0 →
    (∀ level now, Completes (.sample level now) s fun w =>
        w.regs.hiTime ≠ 0 ∧ (w.regs.motionRequest = true ∨ HaltedAtBoundary w.trace))
      ∧ Completes .hold s fun w => w.regs.hiTime ≠ 0

/-- R109 (derived there): a capture disarms its edge and arms the other if and only if the captured `now` differs from
that edge's shadow; no other SAMPLE step changes arming. -/
def Obligations.CaptureArmsTheOtherEdge : Prop :=
  ∀ (s : State) (now : Nat), Ready s →
    (RiseArmed s.regs → Completes (.hi now) s fun w =>
        ¬ RiseArmed w.regs ∧ (FallArmed w.regs ↔ BitVec.ofNat s.cfg.tw now ≠ s.regs.lastSeenRise))
      ∧ (FallArmed s.regs → Completes (.lo now) s fun w =>
        ¬ FallArmed w.regs ∧ (RiseArmed w.regs ↔ BitVec.ofNat s.cfg.tw now ≠ s.regs.lastSeenFall))
      ∧ (¬ RiseArmed s.regs → Completes (.hi now) s fun w =>
        ¬ RiseArmed w.regs ∧ (FallArmed w.regs ↔ FallArmed s.regs))
      ∧ (¬ FallArmed s.regs → Completes (.lo now) s fun w =>
        ¬ FallArmed w.regs ∧ (RiseArmed w.regs ↔ RiseArmed s.regs))

/-- R110 (derived there): with neither edge armed, no sequence of commands but RESET changes a timestamp or the hi-time
or arms an edge, and the block goes on stepping. -/
def Obligations.LockUpLastsUntilReset : Prop :=
  ∀ (s : State) (program : List Instr), s.Inv → Locked s.regs → .rst ∉ program →
    ∃ w : Work s.cfg, runCommands program s = .next (s.commit w)
      ∧ SameTimestamps s.regs w.regs ∧ w.regs.hiTime = s.regs.hiTime ∧ Locked w.regs

/-- R110 case (a), R256 (decisions D5, D6): the first rise after power-up locks the decoder exactly when it is captured at
`now = SENTINEL`. -/
def Obligations.FirstRiseAtSentinelLocks : Prop :=
  ∀ (c : Config) (now : Nat), c.wellFormed = true → now < 2 ^ c.tw →
    Completes (.hi now) (State.powerUp c) fun w => Locked w.regs ↔ now = c.sentinel

/-- R111 (derived there): a wrap inside a pulse suppresses its hi-time; a wrap between a fall capture and the next rise
capture gives the spurious hi-time `old fallTime - new riseTime` in the rise-capture step. -/
def Obligations.TimerWrapEffects : Prop :=
  ∀ (s : State) (now : Nat), Ready s → now < 2 ^ s.cfg.tw →
    (FallArmed s.regs → now < s.regs.riseTime.toNat →
        Completes (.lo now) s fun w => w.regs.hiTime = s.regs.hiTime)
      ∧ (RiseArmed s.regs → now < s.regs.fallTime.toNat →
        Completes (.hi now) s fun w => w.regs.hiTime.toNat = s.regs.fallTime.toNat - now)

/-- R112 (derived there; decision D6): from power-up, LOW samples and HOLDs change no register, and the block stays armed
for a rise alone. -/
def Obligations.NothingHappensBeforeTheFirstRise : Prop :=
  ∀ (c : Config) (program : List Instr), c.wellFormed = true → (∀ i ∈ program, i = .hold ∨ ∃ now, i = .lo now) →
    ∃ trace, runCommands program (State.powerUp c) = .next ((State.powerUp c).commit ⟨Regs.reset c, trace⟩)
      ∧ RiseArmed (Regs.reset c) ∧ ¬ FallArmed (Regs.reset c)

/-- R113 (derived there), under the premises of R233 (decision D22): over a pulse in which the timer does not wrap, the
hi-time set at the fall capture is `t_L - t_H`. The premise on `now 0` is that the rise arms the fall (R110). -/
def Obligations.PulseHiTimeIsExact : Prop :=
  ∀ (s : State) (n : Nat) (T : Nat → Nat) (now : Nat → Word s.cfg.tw), Ready s → RiseArmed s.regs →
    TimerLift s.cfg.tw T now → NoWrap s.cfg.tw T 0 (n + 1) → T 0 < T (n + 1) → now 0 ≠ s.regs.lastSeenRise →
    ∃ w : Work s.cfg,
      runCommands ((List.range (n + 1)).map (fun k => .hi (now k).toNat) ++ [.lo (now (n + 1)).toNat]) s
          = .next (s.commit w)
        ∧ w.regs.hiTime.toNat = T (n + 1) - T 0

/-- R233, R255 (decision D22; derived there): under `Advances` between two captures of one edge, the second arms the other
edge, so the decoder does not lock up. -/
def Obligations.AdvancingTimerDoesNotLock : Prop :=
  ∀ (s : State) (T : Nat → Nat) (now : Nat → Word s.cfg.tw) (i j : Nat), Ready s →
    TimerLift s.cfg.tw T now → Advances s.cfg.tw T i j →
    (RiseArmed s.regs → s.regs.lastSeenRise = now i →
        Completes (.hi (now j).toNat) s fun w => FallArmed w.regs)
      ∧ (FallArmed s.regs → s.regs.lastSeenFall = now i →
        Completes (.lo (now j).toNat) s fun w => RiseArmed w.regs)

/-- R102, R104, R232 (decisions D4, D6): a SAMPLE step that does not capture cannot tell two values of `now` apart. -/
def Obligations.NowMattersOnlyToACapture : Prop :=
  ∀ (s : State) (m n : Nat),
    (¬ RiseArmed s.regs → exec (.hi m) s = exec (.hi n) s) ∧ (¬ FallArmed s.regs → exec (.lo m) s = exec (.lo n) s)

/-! ## Motion State Machine -/

/-- R131, R161, R163 (decisions D11, D12): TO_EXTEND, and what apply then does in the same step. -/
def Obligations.HighHiTimeExtends : Prop :=
  ∀ (s : State) (level : Bool) (now : Nat), Ready s →
    Completes (.sample level now) s fun w =>
      Requested s.regs w.regs → ¬ InState .extend s.regs → AboveBand w.regs → AboveMin s.regs →
        InState .extend w.regs ∧ w.regs.motorDir = true ∧ w.regs.position = s.regs.position - 1
          ∧ w.regs.motorDuty = s.cfg.motorSpeedW ∧ w.regs.motionRequest = true ∧ w.trace = [.drive true]

/-- R132, R161, R162 (decisions D11, D12): TO_RETRACT, and what apply then does in the same step. -/
def Obligations.LowHiTimeRetracts : Prop :=
  ∀ (s : State) (level : Bool) (now : Nat), Ready s →
    Completes (.sample level now) s fun w =>
      Requested s.regs w.regs → ¬ InState .retract s.regs → BelowBand w.regs → BelowMax s.regs →
        InState .retract w.regs ∧ w.regs.motorDir = false ∧ w.regs.position = s.regs.position + 1
          ∧ w.regs.motorDuty = s.cfg.motorSpeedW ∧ w.regs.motionRequest = true ∧ w.trace = [.drive false]

/-- R133: in the dead-band the motor state becomes STOP at any position and from any state, `motorDir` unchanged; apply
then halts (R165). -/
def Obligations.DeadBandStops : Prop :=
  ∀ (s : State) (level : Bool) (now : Nat), Ready s →
    Completes (.sample level now) s fun w => Requested s.regs w.regs → InDeadBand w.regs →
      InState .stop w.regs ∧ w.regs.motorDir = s.regs.motorDir ∧ w.regs.position = s.regs.position
        ∧ w.regs.motorDuty = 0 ∧ w.regs.motionRequest = true ∧ w.trace = [.halt]

/-- R134: where none of the three conditions holds, the last state persists, at a limit too; apply then acts on it
(R160 to R165; decisions D12, D16, D26 for what apply writes). -/
def Obligations.LastStatePersists : Prop :=
  ∀ (s : State) (level : Bool) (now : Nat), Ready s →
    Completes (.sample level now) s fun w => Requested s.regs w.regs →
      ¬ (¬ InState .extend s.regs ∧ AboveBand w.regs ∧ AboveMin s.regs) →
      ¬ (¬ InState .retract s.regs ∧ BelowBand w.regs ∧ BelowMax s.regs) → ¬ InDeadBand w.regs →
        AppliesHeldState s.regs w

/-- R130 (decision D15): without a motion request interpret is skipped, and apply still runs. -/
def Obligations.InterpretSkippedWithoutRequest : Prop :=
  ∀ (s : State) (level : Bool) (now : Nat), Ready s →
    Completes (.sample level now) s fun w => ¬ Requested s.regs w.regs → AppliesHeldState s.regs w

/-- R136 (derived there): a second interpret on the result of the first changes nothing. -/
def Obligations.SecondInterpretChangesNothing : Prop :=
  ∀ (c : Config) (r : Regs c), c.wellFormed = true → interpretStage (interpretStage r) = interpretStage r

/-- R137 (derived there; 90_conflicts.md C6): the only ways out of EXTEND. -/
def Obligations.WaysOutOfExtend : Prop :=
  ∀ (s : State) (level : Bool) (now : Nat), Ready s → InState .extend s.regs →
    Completes (.sample level now) s fun w => ¬ InState .extend w.regs →
      (InState .retract w.regs ∧ BelowBand w.regs ∧ BelowMax s.regs)
        ∨ (InState .stop w.regs ∧ InDeadBand w.regs)
        ∨ (InState .stop w.regs ∧ HaltedAtBoundary w.trace ∧ ¬ AboveMin s.regs)

/-- R29, R164 (decisions D11, D26): a SAMPLE step changes the direction bit only on entering EXTEND, to 1, or RETRACT,
to 0. -/
def Obligations.DirectionBitChangesOnlyOnEntry : Prop :=
  ∀ (s : State) (level : Bool) (now : Nat), Ready s →
    Completes (.sample level now) s fun w => w.regs.motorDir ≠ s.regs.motorDir →
      (¬ InState .extend s.regs ∧ InState .extend w.regs ∧ w.regs.motorDir = true)
        ∨ (¬ InState .retract s.regs ∧ InState .retract w.regs ∧ w.regs.motorDir = false)

/-- R139 (derived there): an opposite request at a limit keeps the state moving and the position comes back by one, or
halts where both bounds are the same. -/
def Obligations.OppositeRequestAtALimit : Prop :=
  ∀ (s : State) (level : Bool) (now : Nat), s.Inv →
    (InState .extend s.regs → s.regs.position.toInt = s.cfg.tachMax →
        Completes (.sample level now) s fun w => BelowBand w.regs →
          (s.cfg.tachMin < s.cfg.tachMax →
              InState .extend w.regs ∧ w.regs.position = s.regs.position - 1 ∧ w.trace = [.drive true])
            ∧ (s.cfg.tachMin = s.cfg.tachMax →
              InState .stop w.regs ∧ w.regs.position = s.regs.position ∧ HaltedAtBoundary w.trace))
      ∧ (InState .retract s.regs → s.regs.position.toInt = s.cfg.tachMin →
        Completes (.sample level now) s fun w => AboveBand w.regs →
          (s.cfg.tachMin < s.cfg.tachMax →
              InState .retract w.regs ∧ w.regs.position = s.regs.position + 1 ∧ w.trace = [.drive false])
            ∧ (s.cfg.tachMin = s.cfg.tachMax →
              InState .stop w.regs ∧ w.regs.position = s.regs.position ∧ HaltedAtBoundary w.trace))

/-! ## Bounded Position Tracker -/

/-- R162, R163, as integers: where interpret leaves RETRACT and `position < TACH_MAX`, and nowhere else, the step ends in
RETRACT, with `position` up by one and the flag decode left; where it leaves EXTEND and `position > TACH_MIN`, and nowhere
else, it ends in EXTEND, with `position` down by one. -/
def Obligations.CountFollowsMotorState : Prop :=
  ∀ (s : State) (level : Bool) (now : Nat), Ready s →
    let m := interpretStage (decodeStage level (nowOperand s.cfg now) s.regs)
    Completes (.sample level now) s fun w =>
      (InState .retract w.regs ↔ InState .retract m ∧ s.regs.position.toInt < s.cfg.tachMax)
        ∧ (InState .retract w.regs →
          w.regs.position.toInt = s.regs.position.toInt + 1 ∧ w.regs.motionRequest = m.motionRequest)
        ∧ (InState .extend w.regs ↔ InState .extend m ∧ s.regs.position.toInt > s.cfg.tachMin)
        ∧ (InState .extend w.regs →
          w.regs.position.toInt = s.regs.position.toInt - 1 ∧ w.regs.motionRequest = m.motionRequest)

/-- R165: the trace is `[Halt]` exactly where interpret leaves STOP; then the duty is 0, and every other register is as
interpret left it, `position` and `motorDir` as the step found them. -/
def Obligations.HaltWhileStopped : Prop :=
  ∀ (s : State) (level : Bool) (now : Nat), Ready s →
    let m := interpretStage (decodeStage level (nowOperand s.cfg now) s.regs)
    Completes (.sample level now) s fun w =>
      (w.trace = [.halt] ↔ InState .stop m)
        ∧ (InState .stop m → w.regs = { m with motorDuty := 0 } ∧ w.regs.position = s.regs.position
            ∧ w.regs.motorDir = s.regs.motorDir)

/-- R138, R164 (derived there; decisions D16, D26): a boundary halt comes only from a state held at its own limit, after
PERSIST; it leaves `position` and `motorDir`, and ends stopped with duty 0 and the flag clear. -/
def Obligations.BoundaryHaltOnlyAtTheLimit : Prop :=
  ∀ (s : State) (level : Bool) (now : Nat), s.Inv →
    Completes (.sample level now) s fun w => HaltedAtBoundary w.trace →
      (InState .retract s.regs ∧ s.regs.position.toInt = s.cfg.tachMax
          ∨ InState .extend s.regs ∧ s.regs.position.toInt = s.cfg.tachMin)
        ∧ .interpret .persist ∈ subOperations level (nowOperand s.cfg now) s.regs
        ∧ w.regs.position = s.regs.position ∧ w.regs.motorDir = s.regs.motorDir ∧ w.regs.motorDuty = 0
        ∧ InState .stop w.regs ∧ w.regs.motionRequest = false

/-- R167 (derived there): bounds that hold at the start of a step hold at its end. -/
def Obligations.PositionStaysInBounds : Prop :=
  ∀ s t : State, s.cfg.wellFormed = true →
    s.cfg.tachMin ≤ s.regs.position.toInt ∧ s.regs.position.toInt ≤ s.cfg.tachMax → step s = .next t →
      t.cfg.tachMin ≤ t.regs.position.toInt ∧ t.regs.position.toInt ≤ t.cfg.tachMax

/-- R169 (derived there): the position changes, by exactly 1, if and only if the step's trace is `[Drive]`. -/
def Obligations.PositionMovesExactlyWhenDriven : Prop :=
  ∀ (s : State) (level : Bool) (now : Nat), Ready s →
    Completes (.sample level now) s fun w =>
      ((∃ dir, w.trace = [.drive dir]) ↔ w.regs.position ≠ s.regs.position)
        ∧ (w.regs.position.toInt - s.regs.position.toInt).natAbs ≤ 1

/-- R259 (derived there; decision D13): the clear of the flag by a boundary halt lasts to the next SAMPLE step, which does
not halt at a boundary again. -/
def Obligations.MotionRequestClearIsTransient : Prop :=
  ∀ (s : State) (level level' : Bool) (now now' : Nat), s.Inv →
    Completes (.sample level now) s fun w => HaltedAtBoundary w.trace →
      Completes (.sample level' now') (s.commit w) fun v =>
        v.regs.motionRequest = true ∧ ¬ HaltedAtBoundary v.trace

/-- Scenario D of the source (R163, R164; spec/95_test_vectors.md T-D): EXTEND with the hi-time held above the band
reaches `TACH_MIN` in exactly as many SAMPLE steps as it is away, and the step after that is the boundary halt. -/
def Obligations.ExtendRunsToTheLimitAndHalts : Prop :=
  ∀ (s : State) (now distance : Nat), s.Inv → InState .extend s.regs → AboveBand s.regs → ¬ RiseArmed s.regs →
    s.regs.position.toInt = s.cfg.tachMin + distance →
    (∃ w : Work s.cfg, runCommands (List.replicate distance (.hi now)) s = .next (s.commit w)
        ∧ InState .extend w.regs ∧ w.regs.position.toInt = s.cfg.tachMin)
      ∧ ∃ w : Work s.cfg, runCommands (List.replicate (distance + 1) (.hi now)) s = .next (s.commit w)
        ∧ w.trace = [.drive true, .halt] ∧ InState .stop w.regs ∧ w.regs.position.toInt = s.cfg.tachMin
        ∧ w.regs.motionRequest = false ∧ w.regs.motorDuty = 0

/-! ## The SAMPLE step as a whole -/

/-- R20, R77, R160, R161 (decisions D12, D16): the frame of the SAMPLE commands. `HI` leaves `fallTime` and
`lastSeenRise`, `LO` leaves `riseTime` and `lastSeenFall`; a hi-time changes only to the difference of a valid pair; the
trace is one of three, its Drive carries `motorDir`, and the duty is that of its last command. -/
def Obligations.SampleFrameAndTrace : Prop :=
  ∀ (s : State) (level : Bool) (now : Nat), Ready s →
    Completes (.sample level now) s fun w =>
      (level = true → w.regs.fallTime = s.regs.fallTime ∧ w.regs.lastSeenRise = s.regs.lastSeenRise)
        ∧ (level = false → w.regs.riseTime = s.regs.riseTime ∧ w.regs.lastSeenFall = s.regs.lastSeenFall)
        ∧ (w.regs.hiTime ≠ s.regs.hiTime → ValidPair w.regs)
        ∧ (w.trace = [.halt] ∧ w.regs.motorDuty = 0
          ∨ w.trace = [.drive w.regs.motorDir] ∧ w.regs.motorDuty = s.cfg.motorSpeedW
          ∨ w.trace = [.drive w.regs.motorDir, .halt] ∧ w.regs.motorDuty = 0)

/-- R82 (the table of sub-operations): the sub-operations a SAMPLE step is said to run account for its trace and its flag. -/
def Obligations.SubOperationsAccountForTheStep : Prop :=
  ∀ (s : State) (level : Bool) (now : Nat), Ready s →
    Completes (.sample level now) s fun w =>
      let ops := subOperations level (nowOperand s.cfg now) s.regs
      (.apply .halt ∈ ops ↔ w.trace = [.halt])
        ∧ (.drive ∈ ops ↔ ∃ rest, w.trace = .drive w.regs.motorDir :: rest)
        ∧ (.apply .boundaryHalt ∈ ops ↔ HaltedAtBoundary w.trace)
        ∧ (.motionRequestSet ∈ ops ↔ w.regs.hiTime ≠ 0)
        ∧ (.interpret .skipped ∈ ops ↔ ¬ Requested s.regs w.regs)

/-! ## Outputs -/

/-- R83 (decision D18): each field of `status` is the register the layout names. -/
def Obligations.StatusPresentsEveryRegister : Prop :=
  ∀ (c : Config) (r : Regs c),
    (statusPort r).extractLsb' 0 2 = r.motorState
      ∧ (statusPort r).extractLsb' 2 1 = BitVec.ofBool r.motionRequest
      ∧ (statusPort r).extractLsb' 3 1 = BitVec.ofBool r.motorDir
      ∧ (statusPort r).extractLsb' 4 c.dw = r.motorDuty
      ∧ (statusPort r).extractLsb' (4 + c.dw) c.pw = r.position
      ∧ (statusPort r).extractLsb' (4 + c.dw + c.pw) c.tw = r.hiTime
      ∧ (statusPort r).extractLsb' (4 + c.dw + c.pw + c.tw) c.tw = r.riseTime
      ∧ (statusPort r).extractLsb' (4 + c.dw + c.pw + 2 * c.tw) c.tw = r.fallTime
      ∧ (statusPort r).extractLsb' (4 + c.dw + c.pw + 3 * c.tw) c.tw = r.lastSeenRise
      ∧ (statusPort r).extractLsb' (4 + c.dw + c.pw + 4 * c.tw) c.tw = r.lastSeenFall

/-- R36 (decision D18): "Every register of rule R20 is presented": the status output determines all of them. -/
def Obligations.StatusDeterminesTheRegisters : Prop :=
  ∀ (c : Config) (r r' : Regs c), statusPort r = statusPort r' → r = r'

/-- R76 (decisions D12, D16): what the command ports show after each command: one of four pairs, told by the trace. -/
def Obligations.CommandPortsShowTheTrace : Prop :=
  ∀ (i : Instr) (s t : State), exec i s = .next t →
    (t.trace = [] ∧ cmdCount t.trace = 0#2 ∧ cmdKind t.trace = 0b00#2 ∧ (i = .rst ∨ i = .hold))
      ∨ (t.trace = [.halt] ∧ cmdCount t.trace = 1#2 ∧ cmdKind t.trace = 0b00#2)
      ∨ (∃ dir, t.trace = [.drive dir] ∧ cmdCount t.trace = 1#2 ∧ cmdKind t.trace = 0b01#2)
      ∨ (∃ dir, t.trace = [.drive dir, .halt] ∧ cmdCount t.trace = 2#2 ∧ cmdKind t.trace = 0b01#2
          ∧ motorDutyPort t.regs = 0)

/-- R198 (decision D28): the observation of a run has one entry for each command, the last that of the state it ends in. -/
def Obligations.ObservationCoversTheRun : Prop :=
  ∀ (s t : State) (program : List Instr), runCommands program s = .next t →
    (observe program s).length = program.length
      ∧ ∀ last ∈ (observe program s).getLast?, last = outputs t

/-! ## The invariant -/

/-- The power-up state of every well-formed configuration meets the invariant, and so does the model's reset state (R250,
decision D25; notes/assumptions/1.md). -/
def Obligations.PowerUpMeetsTheInvariant : Prop :=
  (∀ c : Config, c.wellFormed = true → (State.powerUp c).Inv) ∧ State.reset.Inv

/-- From every state that meets the invariant every step keeps it (R28, R78, R105, R109, R131, R132, R161, R164, R166,
R167; some derived, some decisions, there). -/
def Obligations.EveryStepKeepsTheInvariant : Prop :=
  ∀ s t : State, s.Inv → step s = .next t → t.Inv

/-- R78, R190, R223, R250 (decisions D10, D25): from power-up in a well-formed configuration no run of any length, on any
program and then on any free inputs, ever stops, and every state of it meets the invariant. The queue that holds the
program and the free values after it are the model's form of the host's liberties (U6 to U8; notes/assumptions/2.md). -/
def Obligations.RunsFromPowerUpNeverStop : Prop :=
  ∀ (c : Config) (program : List Instr) (n : Nat), c.wellFormed = true →
    ∃ t : State, Host.Core.run core n ((State.powerUp c).withProgram program) = .next t ∧ t.Inv
end

