-- ==== Sys2Proof/Laws/PerInstr.lean ====
section
/-! SUPPORT. What is said of every command as syntax, one lemma for each constructor. -/

/-- The control word written for a command (R80) is selected by a row of the opcode table whose command it is (R72). -/
def Sys2Proof.Laws.TableRow.Statement (i : Sys2Proof.Instr) : Prop :=
  ∃ row ∈ Sys2Proof.opcodeTable, row.selects i.control = true ∧ row.command i.operand = i

theorem Sys2Proof.Laws.TableRow.rst : Sys2Proof.Laws.TableRow.Statement .rst :=
  ⟨_, List.Mem.head _, by decide, rfl⟩

theorem Sys2Proof.Laws.TableRow.hold : Sys2Proof.Laws.TableRow.Statement .hold :=
  ⟨_, List.Mem.tail _ (List.Mem.head _), by decide, rfl⟩

theorem Sys2Proof.Laws.TableRow.lo (now : Nat) : Sys2Proof.Laws.TableRow.Statement (.lo now) :=
  ⟨_, List.Mem.tail _ (List.Mem.tail _ (List.Mem.head _)), by simp [OpcodeRow.selects, Instr.control], rfl⟩

theorem Sys2Proof.Laws.TableRow.hi (now : Nat) : Sys2Proof.Laws.TableRow.Statement (.hi now) :=
  ⟨_, List.Mem.tail _ (List.Mem.tail _ (List.Mem.tail _ (List.Mem.head _))), by simp [OpcodeRow.selects, Instr.control], rfl⟩
end

