-- ==== Sys2Proof/Laws/State.lean ====
section
/-! SUPPORT. One lemma for each field of each update, true by `rfl`, so that no proof unfolds a record update. -/

namespace Sys2Proof.Machine

section Commit
variable (s : State) (w : Work s.cfg)

@[simp] theorem commit_cfg : (s.commit w).cfg = s.cfg := rfl
@[simp] theorem commit_regs : (s.commit w).regs = w.regs := rfl
@[simp] theorem commit_trace : (s.commit w).trace = w.trace := rfl
@[simp] theorem commit_pending : (s.commit w).pending = s.pending := rfl
@[simp] theorem commit_draws : (s.commit w).draws = s.draws := rfl
@[simp] theorem commit_commit (v : Work s.cfg) : (s.commit w).commit v = s.commit v := rfl
@[simp] theorem commit_self : s.commit ⟨s.regs, s.trace⟩ = s := rfl

/-- What a step commits can be read back from the state. -/
theorem commit_injective {s : State} {w v : Work s.cfg} (h : s.commit w = s.commit v) : w = v := by
  obtain ⟨wr, wt⟩ := w
  obtain ⟨vr, vt⟩ := v
  simp only [State.commit, State.mk.injEq, heq_eq_eq, true_and] at h
  simp [h.1, h.2.1]

end Commit

section Updates
variable {c : Config}

@[simp] theorem captureRise_riseTime (now : Word c.tw) (r : Regs c) : (captureRise now r).riseTime = now := rfl
@[simp] theorem captureRise_fallTime (now : Word c.tw) (r : Regs c) : (captureRise now r).fallTime = r.fallTime := rfl
@[simp] theorem captureRise_lastSeenRise (now : Word c.tw) (r : Regs c) : (captureRise now r).lastSeenRise = r.lastSeenRise := rfl
@[simp] theorem captureRise_lastSeenFall (now : Word c.tw) (r : Regs c) : (captureRise now r).lastSeenFall = r.fallTime := rfl
@[simp] theorem captureRise_hiTime (now : Word c.tw) (r : Regs c) : (captureRise now r).hiTime = r.hiTime := rfl
@[simp] theorem captureRise_motionRequest (now : Word c.tw) (r : Regs c) : (captureRise now r).motionRequest = r.motionRequest := rfl
@[simp] theorem captureRise_motorState (now : Word c.tw) (r : Regs c) : (captureRise now r).motorState = r.motorState := rfl
@[simp] theorem captureRise_position (now : Word c.tw) (r : Regs c) : (captureRise now r).position = r.position := rfl
@[simp] theorem captureRise_motorDir (now : Word c.tw) (r : Regs c) : (captureRise now r).motorDir = r.motorDir := rfl
@[simp] theorem captureRise_motorDuty (now : Word c.tw) (r : Regs c) : (captureRise now r).motorDuty = r.motorDuty := rfl

@[simp] theorem captureFall_riseTime (now : Word c.tw) (r : Regs c) : (captureFall now r).riseTime = r.riseTime := rfl
@[simp] theorem captureFall_fallTime (now : Word c.tw) (r : Regs c) : (captureFall now r).fallTime = now := rfl
@[simp] theorem captureFall_lastSeenRise (now : Word c.tw) (r : Regs c) : (captureFall now r).lastSeenRise = r.riseTime := rfl
@[simp] theorem captureFall_lastSeenFall (now : Word c.tw) (r : Regs c) : (captureFall now r).lastSeenFall = r.lastSeenFall := rfl
@[simp] theorem captureFall_hiTime (now : Word c.tw) (r : Regs c) : (captureFall now r).hiTime = r.hiTime := rfl
@[simp] theorem captureFall_motionRequest (now : Word c.tw) (r : Regs c) : (captureFall now r).motionRequest = r.motionRequest := rfl
@[simp] theorem captureFall_motorState (now : Word c.tw) (r : Regs c) : (captureFall now r).motorState = r.motorState := rfl
@[simp] theorem captureFall_position (now : Word c.tw) (r : Regs c) : (captureFall now r).position = r.position := rfl
@[simp] theorem captureFall_motorDir (now : Word c.tw) (r : Regs c) : (captureFall now r).motorDir = r.motorDir := rfl
@[simp] theorem captureFall_motorDuty (now : Word c.tw) (r : Regs c) : (captureFall now r).motorDuty = r.motorDuty := rfl

@[simp] theorem hitimeUpdate_riseTime (r : Regs c) : (hitimeUpdate r).riseTime = r.riseTime := rfl
@[simp] theorem hitimeUpdate_fallTime (r : Regs c) : (hitimeUpdate r).fallTime = r.fallTime := rfl
@[simp] theorem hitimeUpdate_lastSeenRise (r : Regs c) : (hitimeUpdate r).lastSeenRise = r.lastSeenRise := rfl
@[simp] theorem hitimeUpdate_lastSeenFall (r : Regs c) : (hitimeUpdate r).lastSeenFall = r.lastSeenFall := rfl
@[simp] theorem hitimeUpdate_hiTime (r : Regs c) : (hitimeUpdate r).hiTime = r.fallTime - r.riseTime := rfl
@[simp] theorem hitimeUpdate_motionRequest (r : Regs c) : (hitimeUpdate r).motionRequest = r.motionRequest := rfl
@[simp] theorem hitimeUpdate_motorState (r : Regs c) : (hitimeUpdate r).motorState = r.motorState := rfl
@[simp] theorem hitimeUpdate_position (r : Regs c) : (hitimeUpdate r).position = r.position := rfl
@[simp] theorem hitimeUpdate_motorDir (r : Regs c) : (hitimeUpdate r).motorDir = r.motorDir := rfl
@[simp] theorem hitimeUpdate_motorDuty (r : Regs c) : (hitimeUpdate r).motorDuty = r.motorDuty := rfl

@[simp] theorem motionRequestClear_riseTime (r : Regs c) : (motionRequestClear r).riseTime = r.riseTime := rfl
@[simp] theorem motionRequestClear_fallTime (r : Regs c) : (motionRequestClear r).fallTime = r.fallTime := rfl
@[simp] theorem motionRequestClear_lastSeenRise (r : Regs c) : (motionRequestClear r).lastSeenRise = r.lastSeenRise := rfl
@[simp] theorem motionRequestClear_lastSeenFall (r : Regs c) : (motionRequestClear r).lastSeenFall = r.lastSeenFall := rfl
@[simp] theorem motionRequestClear_hiTime (r : Regs c) : (motionRequestClear r).hiTime = r.hiTime := rfl
@[simp] theorem motionRequestClear_motionRequest (r : Regs c) : (motionRequestClear r).motionRequest = false := rfl
@[simp] theorem motionRequestClear_motorState (r : Regs c) : (motionRequestClear r).motorState = r.motorState := rfl
@[simp] theorem motionRequestClear_position (r : Regs c) : (motionRequestClear r).position = r.position := rfl
@[simp] theorem motionRequestClear_motorDir (r : Regs c) : (motionRequestClear r).motorDir = r.motorDir := rfl
@[simp] theorem motionRequestClear_motorDuty (r : Regs c) : (motionRequestClear r).motorDuty = r.motorDuty := rfl

@[simp] theorem toExtend_riseTime (r : Regs c) : (toExtend r).riseTime = r.riseTime := rfl
@[simp] theorem toExtend_fallTime (r : Regs c) : (toExtend r).fallTime = r.fallTime := rfl
@[simp] theorem toExtend_lastSeenRise (r : Regs c) : (toExtend r).lastSeenRise = r.lastSeenRise := rfl
@[simp] theorem toExtend_lastSeenFall (r : Regs c) : (toExtend r).lastSeenFall = r.lastSeenFall := rfl
@[simp] theorem toExtend_hiTime (r : Regs c) : (toExtend r).hiTime = r.hiTime := rfl
@[simp] theorem toExtend_motionRequest (r : Regs c) : (toExtend r).motionRequest = r.motionRequest := rfl
@[simp] theorem toExtend_motorState (r : Regs c) : (toExtend r).motorState = MotorState.extend.code := rfl
@[simp] theorem toExtend_position (r : Regs c) : (toExtend r).position = r.position := rfl
@[simp] theorem toExtend_motorDir (r : Regs c) : (toExtend r).motorDir = true := rfl
@[simp] theorem toExtend_motorDuty (r : Regs c) : (toExtend r).motorDuty = r.motorDuty := rfl

@[simp] theorem toRetract_riseTime (r : Regs c) : (toRetract r).riseTime = r.riseTime := rfl
@[simp] theorem toRetract_fallTime (r : Regs c) : (toRetract r).fallTime = r.fallTime := rfl
@[simp] theorem toRetract_lastSeenRise (r : Regs c) : (toRetract r).lastSeenRise = r.lastSeenRise := rfl
@[simp] theorem toRetract_lastSeenFall (r : Regs c) : (toRetract r).lastSeenFall = r.lastSeenFall := rfl
@[simp] theorem toRetract_hiTime (r : Regs c) : (toRetract r).hiTime = r.hiTime := rfl
@[simp] theorem toRetract_motionRequest (r : Regs c) : (toRetract r).motionRequest = r.motionRequest := rfl
@[simp] theorem toRetract_motorState (r : Regs c) : (toRetract r).motorState = MotorState.retract.code := rfl
@[simp] theorem toRetract_position (r : Regs c) : (toRetract r).position = r.position := rfl
@[simp] theorem toRetract_motorDir (r : Regs c) : (toRetract r).motorDir = false := rfl
@[simp] theorem toRetract_motorDuty (r : Regs c) : (toRetract r).motorDuty = r.motorDuty := rfl

@[simp] theorem toStop_riseTime (r : Regs c) : (toStop r).riseTime = r.riseTime := rfl
@[simp] theorem toStop_fallTime (r : Regs c) : (toStop r).fallTime = r.fallTime := rfl
@[simp] theorem toStop_lastSeenRise (r : Regs c) : (toStop r).lastSeenRise = r.lastSeenRise := rfl
@[simp] theorem toStop_lastSeenFall (r : Regs c) : (toStop r).lastSeenFall = r.lastSeenFall := rfl
@[simp] theorem toStop_hiTime (r : Regs c) : (toStop r).hiTime = r.hiTime := rfl
@[simp] theorem toStop_motionRequest (r : Regs c) : (toStop r).motionRequest = r.motionRequest := rfl
@[simp] theorem toStop_motorState (r : Regs c) : (toStop r).motorState = MotorState.stop.code := rfl
@[simp] theorem toStop_position (r : Regs c) : (toStop r).position = r.position := rfl
@[simp] theorem toStop_motorDir (r : Regs c) : (toStop r).motorDir = r.motorDir := rfl
@[simp] theorem toStop_motorDuty (r : Regs c) : (toStop r).motorDuty = r.motorDuty := rfl

@[simp] theorem emitDrive_riseTime (w : Work c) : (emitDrive w).regs.riseTime = w.regs.riseTime := rfl
@[simp] theorem emitDrive_fallTime (w : Work c) : (emitDrive w).regs.fallTime = w.regs.fallTime := rfl
@[simp] theorem emitDrive_lastSeenRise (w : Work c) : (emitDrive w).regs.lastSeenRise = w.regs.lastSeenRise := rfl
@[simp] theorem emitDrive_lastSeenFall (w : Work c) : (emitDrive w).regs.lastSeenFall = w.regs.lastSeenFall := rfl
@[simp] theorem emitDrive_hiTime (w : Work c) : (emitDrive w).regs.hiTime = w.regs.hiTime := rfl
@[simp] theorem emitDrive_motionRequest (w : Work c) : (emitDrive w).regs.motionRequest = w.regs.motionRequest := rfl
@[simp] theorem emitDrive_motorState (w : Work c) : (emitDrive w).regs.motorState = w.regs.motorState := rfl
@[simp] theorem emitDrive_position (w : Work c) : (emitDrive w).regs.position = w.regs.position := rfl
@[simp] theorem emitDrive_motorDir (w : Work c) : (emitDrive w).regs.motorDir = w.regs.motorDir := rfl
@[simp] theorem emitDrive_motorDuty (w : Work c) : (emitDrive w).regs.motorDuty = c.motorSpeedW := rfl
@[simp] theorem emitDrive_trace (w : Work c) : (emitDrive w).trace = w.trace ++ [.drive w.regs.motorDir] := rfl

@[simp] theorem emitHalt_riseTime (w : Work c) : (emitHalt w).regs.riseTime = w.regs.riseTime := rfl
@[simp] theorem emitHalt_fallTime (w : Work c) : (emitHalt w).regs.fallTime = w.regs.fallTime := rfl
@[simp] theorem emitHalt_lastSeenRise (w : Work c) : (emitHalt w).regs.lastSeenRise = w.regs.lastSeenRise := rfl
@[simp] theorem emitHalt_lastSeenFall (w : Work c) : (emitHalt w).regs.lastSeenFall = w.regs.lastSeenFall := rfl
@[simp] theorem emitHalt_hiTime (w : Work c) : (emitHalt w).regs.hiTime = w.regs.hiTime := rfl
@[simp] theorem emitHalt_motionRequest (w : Work c) : (emitHalt w).regs.motionRequest = w.regs.motionRequest := rfl
@[simp] theorem emitHalt_motorState (w : Work c) : (emitHalt w).regs.motorState = w.regs.motorState := rfl
@[simp] theorem emitHalt_position (w : Work c) : (emitHalt w).regs.position = w.regs.position := rfl
@[simp] theorem emitHalt_motorDir (w : Work c) : (emitHalt w).regs.motorDir = w.regs.motorDir := rfl
@[simp] theorem emitHalt_motorDuty (w : Work c) : (emitHalt w).regs.motorDuty = 0 := rfl
@[simp] theorem emitHalt_trace (w : Work c) : (emitHalt w).trace = w.trace ++ [.halt] := rfl

@[simp] theorem countUp_riseTime (w : Work c) : (countUp w).regs.riseTime = w.regs.riseTime := rfl
@[simp] theorem countUp_fallTime (w : Work c) : (countUp w).regs.fallTime = w.regs.fallTime := rfl
@[simp] theorem countUp_lastSeenRise (w : Work c) : (countUp w).regs.lastSeenRise = w.regs.lastSeenRise := rfl
@[simp] theorem countUp_lastSeenFall (w : Work c) : (countUp w).regs.lastSeenFall = w.regs.lastSeenFall := rfl
@[simp] theorem countUp_hiTime (w : Work c) : (countUp w).regs.hiTime = w.regs.hiTime := rfl
@[simp] theorem countUp_motionRequest (w : Work c) : (countUp w).regs.motionRequest = w.regs.motionRequest := rfl
@[simp] theorem countUp_motorState (w : Work c) : (countUp w).regs.motorState = w.regs.motorState := rfl
@[simp] theorem countUp_position (w : Work c) : (countUp w).regs.position = w.regs.position + 1 := rfl
@[simp] theorem countUp_motorDir (w : Work c) : (countUp w).regs.motorDir = w.regs.motorDir := rfl
@[simp] theorem countUp_motorDuty (w : Work c) : (countUp w).regs.motorDuty = w.regs.motorDuty := rfl
@[simp] theorem countUp_trace (w : Work c) : (countUp w).trace = w.trace := rfl

@[simp] theorem countDown_riseTime (w : Work c) : (countDown w).regs.riseTime = w.regs.riseTime := rfl
@[simp] theorem countDown_fallTime (w : Work c) : (countDown w).regs.fallTime = w.regs.fallTime := rfl
@[simp] theorem countDown_lastSeenRise (w : Work c) : (countDown w).regs.lastSeenRise = w.regs.lastSeenRise := rfl
@[simp] theorem countDown_lastSeenFall (w : Work c) : (countDown w).regs.lastSeenFall = w.regs.lastSeenFall := rfl
@[simp] theorem countDown_hiTime (w : Work c) : (countDown w).regs.hiTime = w.regs.hiTime := rfl
@[simp] theorem countDown_motionRequest (w : Work c) : (countDown w).regs.motionRequest = w.regs.motionRequest := rfl
@[simp] theorem countDown_motorState (w : Work c) : (countDown w).regs.motorState = w.regs.motorState := rfl
@[simp] theorem countDown_position (w : Work c) : (countDown w).regs.position = w.regs.position - 1 := rfl
@[simp] theorem countDown_motorDir (w : Work c) : (countDown w).regs.motorDir = w.regs.motorDir := rfl
@[simp] theorem countDown_motorDuty (w : Work c) : (countDown w).regs.motorDuty = w.regs.motorDuty := rfl
@[simp] theorem countDown_trace (w : Work c) : (countDown w).trace = w.trace := rfl

@[simp] theorem boundaryHalt_riseTime (w : Work c) : (boundaryHalt w).regs.riseTime = w.regs.riseTime := rfl
@[simp] theorem boundaryHalt_fallTime (w : Work c) : (boundaryHalt w).regs.fallTime = w.regs.fallTime := rfl
@[simp] theorem boundaryHalt_lastSeenRise (w : Work c) : (boundaryHalt w).regs.lastSeenRise = w.regs.lastSeenRise := rfl
@[simp] theorem boundaryHalt_lastSeenFall (w : Work c) : (boundaryHalt w).regs.lastSeenFall = w.regs.lastSeenFall := rfl
@[simp] theorem boundaryHalt_hiTime (w : Work c) : (boundaryHalt w).regs.hiTime = w.regs.hiTime := rfl
@[simp] theorem boundaryHalt_motionRequest (w : Work c) : (boundaryHalt w).regs.motionRequest = false := rfl
@[simp] theorem boundaryHalt_motorState (w : Work c) : (boundaryHalt w).regs.motorState = MotorState.stop.code := rfl
@[simp] theorem boundaryHalt_position (w : Work c) : (boundaryHalt w).regs.position = w.regs.position := rfl
@[simp] theorem boundaryHalt_motorDir (w : Work c) : (boundaryHalt w).regs.motorDir = w.regs.motorDir := rfl
@[simp] theorem boundaryHalt_motorDuty (w : Work c) : (boundaryHalt w).regs.motorDuty = 0 := rfl
@[simp] theorem boundaryHalt_trace (w : Work c) : (boundaryHalt w).trace = w.trace ++ [.halt] := rfl

@[simp] theorem reset_riseTime : (Regs.reset c).riseTime = c.sentinelW := rfl
@[simp] theorem reset_fallTime : (Regs.reset c).fallTime = 0 := rfl
@[simp] theorem reset_lastSeenRise : (Regs.reset c).lastSeenRise = c.sentinelW := rfl
@[simp] theorem reset_lastSeenFall : (Regs.reset c).lastSeenFall = c.sentinelW := rfl
@[simp] theorem reset_hiTime : (Regs.reset c).hiTime = 0 := rfl
@[simp] theorem reset_motionRequest : (Regs.reset c).motionRequest = false := rfl
@[simp] theorem reset_motorState : (Regs.reset c).motorState = MotorState.stop.code := rfl
@[simp] theorem reset_position : (Regs.reset c).position = 0 := rfl
@[simp] theorem reset_motorDir : (Regs.reset c).motorDir = false := rfl
@[simp] theorem reset_motorDuty : (Regs.reset c).motorDuty = 0 := rfl

end Updates

section PowerUp
variable (c : Config)

@[simp] theorem powerUp_cfg : (State.powerUp c).cfg = c := rfl
@[simp] theorem powerUp_regs : (State.powerUp c).regs = Regs.reset c := rfl
@[simp] theorem powerUp_trace : (State.powerUp c).trace = [] := rfl
@[simp] theorem powerUp_pending : (State.powerUp c).pending = [] := rfl
@[simp] theorem powerUp_draws : (State.powerUp c).draws = 0 := rfl

end PowerUp

end Sys2Proof.Machine
end

