-- ==== Sys2Proof/Laws/Stages.lean ====
section
/-! SUPPORT. One spec lemma for each stage of a SAMPLE step: what it can do, said once. Proofs cite these and do not
unfold the stages. -/

namespace Sys2Proof.Machine

variable {c : Config}

/-! ## motor state codes -/

theorem code_ne {m n : MotorState} (h : m ≠ n) : m.code ≠ n.code := by
  cases m <;> cases n <;> first | exact absurd rfl h | decide

theorem code_ne_reserved (m : MotorState) : m.code ≠ reservedCode := by cases m <;> decide

/-- A legal code is one of the three. -/
theorem codeLegal_cases {r : Regs c} (h : CodeLegal r) : InState .stop r ∨ InState .extend r ∨ InState .retract r := by
  have all : ∀ w : StateCode, w ≠ reservedCode →
      w = MotorState.stop.code ∨ w = MotorState.extend.code ∨ w = MotorState.retract.code := by decide
  exact all _ h

/-- The register holds at most one state. -/
theorem inState_unique {r : Regs c} {m n : MotorState} (hm : InState m r) (hn : InState n r) : m = n := by
  by_contra h
  exact code_ne h (hm.symm.trans hn)

theorem inState_legal {r : Regs c} {m : MotorState} (h : InState m r) : CodeLegal r := by
  rw [CodeLegal, h]; exact code_ne_reserved m

/-! ## the configuration at its widths -/

/-- The constraints of R7 one by one. -/
theorem wellFormed_iff : c.wellFormed = true ↔
    c.WidthsOk ∧ c.SentinelOk ∧ c.ThresholdsOk ∧ c.BoundsOk ∧ c.BoundsFit ∧ c.SpeedOk := by
  simp only [Config.wellFormed, Bool.and_eq_true, decide_eq_true_eq, and_assoc]

theorem sentinelW_toNat (h : c.SentinelOk) : c.sentinelW.toNat = c.sentinel := by
  simp [Config.sentinelW, Nat.mod_eq_of_lt h.2]

theorem hiThreshW_toNat (h : c.ThresholdsOk) : c.hiThreshW.toNat = c.hiThresh := by
  simp [Config.hiThreshW, Nat.mod_eq_of_lt h.2]

theorem loThreshW_toNat (h : c.ThresholdsOk) : c.loThreshW.toNat = c.loThresh := by
  have := h.2
  simp only [Config.loThreshW, BitVec.toNat_ofNat]
  exact Nat.mod_eq_of_lt (by have := h.1; omega)

theorem ofInt_toInt {n : Nat} {x : Int} (hn : 1 ≤ n) (hl : -((2 ^ (n - 1) : Nat) : Int) ≤ x)
    (hu : x < ((2 ^ (n - 1) : Nat) : Int)) : (BitVec.ofInt n x).toInt = x := by
  obtain ⟨k, rfl⟩ : ∃ k, n = k + 1 := ⟨n - 1, by omega⟩
  have h2 : (2 ^ (k + 1) : Nat) = 2 * 2 ^ k := by rw [Nat.pow_succ, Nat.mul_comm]
  rw [BitVec.toInt_ofInt, h2]
  simp only [Nat.add_sub_cancel] at hl hu
  generalize 2 ^ k = m at hl hu
  rw [Int.bmod_eq_of_le] <;> omega

theorem tachMinW_toInt (h : c.wellFormed = true) : c.tachMinW.toInt = c.tachMin := by
  obtain ⟨⟨_, _, _⟩, _, _, ⟨_, _⟩, ⟨hl, hu⟩, _⟩ := wellFormed_iff.1 h
  exact ofInt_toInt (by omega) hl (by omega)

theorem tachMaxW_toInt (h : c.wellFormed = true) : c.tachMaxW.toInt = c.tachMax := by
  obtain ⟨⟨_, _, _⟩, _, _, ⟨_, _⟩, ⟨hl, hu⟩, _⟩ := wellFormed_iff.1 h
  exact ofInt_toInt (by omega) (by omega) hu

/-! ## decode -/

theorem captureStage_high_armed (now : Word c.tw) {r : Regs c} (h : RiseArmed r) :
    captureStage true now r = captureRise now r := by
  simp only [captureStage, selectCapture, if_pos h, runCapture]

theorem captureStage_high_disarmed (now : Word c.tw) {r : Regs c} (h : ¬ RiseArmed r) :
    captureStage true now r = r := by
  simp only [captureStage, selectCapture, if_neg h, runCapture]

theorem captureStage_low_armed (now : Word c.tw) {r : Regs c} (h : FallArmed r) :
    captureStage false now r = captureFall now r := by
  simp only [captureStage, selectCapture, if_pos h, runCapture]

theorem captureStage_low_disarmed (now : Word c.tw) {r : Regs c} (h : ¬ FallArmed r) :
    captureStage false now r = r := by
  simp only [captureStage, selectCapture, if_neg h, runCapture]

/-- All that a capture can do (R101 to R104). -/
theorem captureStage_cases (level : Bool) (now : Word c.tw) (r : Regs c) :
    (level = true ∧ RiseArmed r ∧ captureStage level now r = captureRise now r)
      ∨ (level = false ∧ FallArmed r ∧ captureStage level now r = captureFall now r)
      ∨ (¬ (level = true ∧ RiseArmed r) ∧ ¬ (level = false ∧ FallArmed r) ∧ captureStage level now r = r) := by
  cases level
  · by_cases h : FallArmed r
    · exact .inr (.inl ⟨rfl, h, captureStage_low_armed now h⟩)
    · exact .inr (.inr ⟨by simp, by simp [h], captureStage_low_disarmed now h⟩)
  · by_cases h : RiseArmed r
    · exact .inl ⟨rfl, h, captureStage_high_armed now h⟩
    · exact .inr (.inr ⟨by simp [h], by simp, captureStage_high_disarmed now h⟩)

section Kept
variable (level : Bool) (now : Word c.tw) (r : Regs c)

@[simp] theorem captureStage_hiTime : (captureStage level now r).hiTime = r.hiTime := by
  obtain ⟨_, _, h⟩ | ⟨_, _, h⟩ | ⟨_, _, h⟩ := captureStage_cases level now r <;> simp [h]
@[simp] theorem captureStage_motionRequest : (captureStage level now r).motionRequest = r.motionRequest := by
  obtain ⟨_, _, h⟩ | ⟨_, _, h⟩ | ⟨_, _, h⟩ := captureStage_cases level now r <;> simp [h]
@[simp] theorem captureStage_motorState : (captureStage level now r).motorState = r.motorState := by
  obtain ⟨_, _, h⟩ | ⟨_, _, h⟩ | ⟨_, _, h⟩ := captureStage_cases level now r <;> simp [h]
@[simp] theorem captureStage_position : (captureStage level now r).position = r.position := by
  obtain ⟨_, _, h⟩ | ⟨_, _, h⟩ | ⟨_, _, h⟩ := captureStage_cases level now r <;> simp [h]
@[simp] theorem captureStage_motorDir : (captureStage level now r).motorDir = r.motorDir := by
  obtain ⟨_, _, h⟩ | ⟨_, _, h⟩ | ⟨_, _, h⟩ := captureStage_cases level now r <;> simp [h]
@[simp] theorem captureStage_motorDuty : (captureStage level now r).motorDuty = r.motorDuty := by
  obtain ⟨_, _, h⟩ | ⟨_, _, h⟩ | ⟨_, _, h⟩ := captureStage_cases level now r <;> simp [h]

end Kept

/-- All that the hi-time part can do (R105, R106). -/
theorem hitimeStage_eq (r : Regs c) :
    hitimeStage r = { r with hiTime := if ValidPair r then r.fallTime - r.riseTime else r.hiTime } := by
  unfold hitimeStage selectHitime
  by_cases h : ValidPair r
  · simp only [if_pos h]; rfl
  · simp only [if_neg h]; rfl

/-- All that the motion-request part can do (R107). -/
theorem motionRequestSet_eq (r : Regs c) :
    motionRequestSet r = { r with motionRequest := r.motionRequest || decide (r.hiTime ≠ 0) } := by
  unfold motionRequestSet
  by_cases h : r.hiTime ≠ 0
  · simp only [if_pos h, decide_eq_true h, Bool.or_true]
  · simp only [if_neg h, decide_eq_false h, Bool.or_false]

/-- All that decode can do (R100): the capture's timestamps, the hi-time they give, the flag that gives. -/
theorem decodeStage_eq (level : Bool) (now : Word c.tw) (r : Regs c) :
    decodeStage level now r =
      let d := captureStage level now r
      let hiTime := if ValidPair d then d.fallTime - d.riseTime else r.hiTime
      { d with hiTime := hiTime, motionRequest := r.motionRequest || decide (hiTime ≠ 0) } := by
  simp only [decodeStage, motionRequestSet_eq, hitimeStage_eq, captureStage_hiTime, captureStage_motionRequest]

section Decode
variable (level : Bool) (now : Word c.tw) (r : Regs c)

@[simp] theorem decodeStage_riseTime : (decodeStage level now r).riseTime = (captureStage level now r).riseTime := by
  rw [decodeStage_eq]
@[simp] theorem decodeStage_fallTime : (decodeStage level now r).fallTime = (captureStage level now r).fallTime := by
  rw [decodeStage_eq]
@[simp] theorem decodeStage_lastSeenRise :
    (decodeStage level now r).lastSeenRise = (captureStage level now r).lastSeenRise := by
  rw [decodeStage_eq]
@[simp] theorem decodeStage_lastSeenFall :
    (decodeStage level now r).lastSeenFall = (captureStage level now r).lastSeenFall := by
  rw [decodeStage_eq]
@[simp] theorem decodeStage_motorState : (decodeStage level now r).motorState = r.motorState := by
  simp [decodeStage_eq]
@[simp] theorem decodeStage_position : (decodeStage level now r).position = r.position := by
  simp [decodeStage_eq]
@[simp] theorem decodeStage_motorDir : (decodeStage level now r).motorDir = r.motorDir := by
  simp [decodeStage_eq]
@[simp] theorem decodeStage_motorDuty : (decodeStage level now r).motorDuty = r.motorDuty := by
  simp [decodeStage_eq]

theorem decodeStage_hiTime : (decodeStage level now r).hiTime =
    if ValidPair (decodeStage level now r)
    then (decodeStage level now r).fallTime - (decodeStage level now r).riseTime else r.hiTime := by
  rw [decodeStage_eq]

theorem decodeStage_motionRequest : (decodeStage level now r).motionRequest =
    (r.motionRequest || decide ((decodeStage level now r).hiTime ≠ 0)) := by
  rw [decodeStage_eq]

end Decode

/-! ## interpret -/

/-- All that interpret can do (R130 to R135). -/
theorem interpretStage_cases (r : Regs c) :
    (r.motionRequest = false ∧ interpretStage r = r)
      ∨ (r.motionRequest = true ∧ ¬ InState .extend r ∧ AboveBand r ∧ AboveMin r ∧ interpretStage r = toExtend r)
      ∨ (r.motionRequest = true ∧ ¬ (¬ InState .extend r ∧ AboveBand r ∧ AboveMin r)
          ∧ ¬ InState .retract r ∧ BelowBand r ∧ BelowMax r ∧ interpretStage r = toRetract r)
      ∨ (r.motionRequest = true ∧ ¬ (¬ InState .extend r ∧ AboveBand r ∧ AboveMin r)
          ∧ ¬ (¬ InState .retract r ∧ BelowBand r ∧ BelowMax r) ∧ InDeadBand r ∧ interpretStage r = toStop r)
      ∨ (r.motionRequest = true ∧ ¬ (¬ InState .extend r ∧ AboveBand r ∧ AboveMin r)
          ∧ ¬ (¬ InState .retract r ∧ BelowBand r ∧ BelowMax r) ∧ ¬ InDeadBand r ∧ interpretStage r = r) := by
  unfold interpretStage selectInterpret
  by_cases h0 : r.motionRequest = false
  · exact .inl ⟨h0, by simp only [if_pos h0]; rfl⟩
  have h0' : r.motionRequest = true := by simpa using h0
  by_cases h1 : ¬ InState .extend r ∧ AboveBand r ∧ AboveMin r
  · exact .inr (.inl ⟨h0', h1.1, h1.2.1, h1.2.2, by simp only [if_neg h0, if_pos h1]; rfl⟩)
  by_cases h2 : ¬ InState .retract r ∧ BelowBand r ∧ BelowMax r
  · exact .inr (.inr (.inl ⟨h0', h1, h2.1, h2.2.1, h2.2.2, by simp only [if_neg h0, if_neg h1, if_pos h2]; rfl⟩))
  by_cases h3 : InDeadBand r
  · exact .inr (.inr (.inr (.inl ⟨h0', h1, h2, h3, by simp only [if_neg h0, if_neg h1, if_neg h2, if_pos h3]; rfl⟩)))
  · exact .inr (.inr (.inr (.inr ⟨h0', h1, h2, h3, by simp only [if_neg h0, if_neg h1, if_neg h2, if_neg h3]; rfl⟩)))

section Interpret
variable (r : Regs c)

/-- Interpret writes nothing but `motorState` and `motorDir`. -/
theorem interpretStage_eq : ∃ code dir, interpretStage r = { r with motorState := code, motorDir := dir } := by
  obtain ⟨_, h⟩ | ⟨_, _, _, _, h⟩ | ⟨_, _, _, _, _, h⟩ | ⟨_, _, _, _, h⟩ | ⟨_, _, _, _, h⟩ := interpretStage_cases r <;>
    exact ⟨_, _, h⟩

@[simp] theorem interpretStage_riseTime : (interpretStage r).riseTime = r.riseTime := by
  obtain ⟨_, _, h⟩ := interpretStage_eq r; simp [h]
@[simp] theorem interpretStage_fallTime : (interpretStage r).fallTime = r.fallTime := by
  obtain ⟨_, _, h⟩ := interpretStage_eq r; simp [h]
@[simp] theorem interpretStage_lastSeenRise : (interpretStage r).lastSeenRise = r.lastSeenRise := by
  obtain ⟨_, _, h⟩ := interpretStage_eq r; simp [h]
@[simp] theorem interpretStage_lastSeenFall : (interpretStage r).lastSeenFall = r.lastSeenFall := by
  obtain ⟨_, _, h⟩ := interpretStage_eq r; simp [h]
@[simp] theorem interpretStage_hiTime : (interpretStage r).hiTime = r.hiTime := by
  obtain ⟨_, _, h⟩ := interpretStage_eq r; simp [h]
@[simp] theorem interpretStage_motionRequest : (interpretStage r).motionRequest = r.motionRequest := by
  obtain ⟨_, _, h⟩ := interpretStage_eq r; simp [h]
@[simp] theorem interpretStage_position : (interpretStage r).position = r.position := by
  obtain ⟨_, _, h⟩ := interpretStage_eq r; simp [h]
@[simp] theorem interpretStage_motorDuty : (interpretStage r).motorDuty = r.motorDuty := by
  obtain ⟨_, _, h⟩ := interpretStage_eq r; simp [h]

/-- Interpret never writes the reserved code (R78). -/
theorem interpretStage_legal (h : CodeLegal r) : CodeLegal (interpretStage r) := by
  obtain ⟨_, e⟩ | ⟨_, _, _, _, e⟩ | ⟨_, _, _, _, _, e⟩ | ⟨_, _, _, _, e⟩ | ⟨_, _, _, _, e⟩ := interpretStage_cases r
  · rwa [e]
  · rw [e]; exact inState_legal (m := .extend) rfl
  · rw [e]; exact inState_legal (m := .retract) rfl
  · rw [e]; exact inState_legal (m := .stop) rfl
  · rwa [e]

end Interpret

/-! ## apply -/

/-- All that apply can do (R160 to R165). -/
theorem applyStage_cases (r : Regs c) :
    (InState .stop r ∧ applyStage r = ⟨{ r with motorDuty := 0 }, [.halt]⟩)
      ∨ (InState .retract r ∧ BelowMax r ∧ applyStage r =
          ⟨{ r with motorDuty := c.motorSpeedW, position := r.position + 1 }, [.drive r.motorDir]⟩)
      ∨ (InState .extend r ∧ AboveMin r ∧ applyStage r =
          ⟨{ r with motorDuty := c.motorSpeedW, position := r.position - 1 }, [.drive r.motorDir]⟩)
      ∨ (¬ InState .stop r ∧ ¬ (InState .retract r ∧ BelowMax r) ∧ ¬ (InState .extend r ∧ AboveMin r) ∧ applyStage r =
          ⟨{ r with motorDuty := 0, motorState := MotorState.stop.code, motionRequest := false },
            [.drive r.motorDir, .halt]⟩) := by
  unfold applyStage selectApply
  by_cases h0 : InState .stop r
  · exact .inl ⟨h0, by simp only [if_pos h0]; rfl⟩
  by_cases h1 : InState .retract r ∧ BelowMax r
  · exact .inr (.inl ⟨h1.1, h1.2, by simp only [if_neg h0, if_pos h1]; rfl⟩)
  by_cases h2 : InState .extend r ∧ AboveMin r
  · exact .inr (.inr (.inl ⟨h2.1, h2.2, by simp only [if_neg h0, if_neg h1, if_pos h2]; rfl⟩))
  · exact .inr (.inr (.inr ⟨h0, h1, h2, by simp only [if_neg h0, if_neg h1, if_neg h2]; rfl⟩))

section Apply
variable (r : Regs c)

@[simp] theorem applyStage_riseTime : (applyStage r).regs.riseTime = r.riseTime := by
  obtain ⟨_, h⟩ | ⟨_, _, h⟩ | ⟨_, _, h⟩ | ⟨_, _, _, h⟩ := applyStage_cases r <;> simp [h]
@[simp] theorem applyStage_fallTime : (applyStage r).regs.fallTime = r.fallTime := by
  obtain ⟨_, h⟩ | ⟨_, _, h⟩ | ⟨_, _, h⟩ | ⟨_, _, _, h⟩ := applyStage_cases r <;> simp [h]
@[simp] theorem applyStage_lastSeenRise : (applyStage r).regs.lastSeenRise = r.lastSeenRise := by
  obtain ⟨_, h⟩ | ⟨_, _, h⟩ | ⟨_, _, h⟩ | ⟨_, _, _, h⟩ := applyStage_cases r <;> simp [h]
@[simp] theorem applyStage_lastSeenFall : (applyStage r).regs.lastSeenFall = r.lastSeenFall := by
  obtain ⟨_, h⟩ | ⟨_, _, h⟩ | ⟨_, _, h⟩ | ⟨_, _, _, h⟩ := applyStage_cases r <;> simp [h]
@[simp] theorem applyStage_hiTime : (applyStage r).regs.hiTime = r.hiTime := by
  obtain ⟨_, h⟩ | ⟨_, _, h⟩ | ⟨_, _, h⟩ | ⟨_, _, _, h⟩ := applyStage_cases r <;> simp [h]
@[simp] theorem applyStage_motorDir : (applyStage r).regs.motorDir = r.motorDir := by
  obtain ⟨_, h⟩ | ⟨_, _, h⟩ | ⟨_, _, h⟩ | ⟨_, _, _, h⟩ := applyStage_cases r <;> simp [h]

end Apply

/-! ## the SAMPLE step -/

section Sample
variable (level : Bool) (now : Word c.tw) (r : Regs c)

@[simp] theorem sampleWork_riseTime :
    (sampleWork level now r).regs.riseTime = (captureStage level now r).riseTime := by simp [sampleWork]
@[simp] theorem sampleWork_fallTime :
    (sampleWork level now r).regs.fallTime = (captureStage level now r).fallTime := by simp [sampleWork]
@[simp] theorem sampleWork_lastSeenRise :
    (sampleWork level now r).regs.lastSeenRise = (captureStage level now r).lastSeenRise := by simp [sampleWork]
@[simp] theorem sampleWork_lastSeenFall :
    (sampleWork level now r).regs.lastSeenFall = (captureStage level now r).lastSeenFall := by simp [sampleWork]
/-- Nothing after decode writes `hiTime`. -/
theorem sampleWork_hiTime : (sampleWork level now r).regs.hiTime = (decodeStage level now r).hiTime := by
  simp [sampleWork]

/-- All that a SAMPLE step can do once decode has run: enter EXTEND and count down, enter RETRACT and count up, stop in
the dead-band, or let apply act on the state as it was (R130 to R135, R138, R160 to R165). -/
theorem sampleWork_cases : let d := decodeStage level now r
    (d.motionRequest = true ∧ ¬ InState .extend d ∧ AboveBand d ∧ AboveMin d ∧ sampleWork level now r =
        ⟨{ d with motorState := MotorState.extend.code, motorDir := true, motorDuty := c.motorSpeedW,
                  position := d.position - 1 }, [.drive true]⟩)
      ∨ (d.motionRequest = true ∧ ¬ (¬ InState .extend d ∧ AboveBand d ∧ AboveMin d)
        ∧ ¬ InState .retract d ∧ BelowBand d ∧ BelowMax d ∧ sampleWork level now r =
        ⟨{ d with motorState := MotorState.retract.code, motorDir := false, motorDuty := c.motorSpeedW,
                  position := d.position + 1 }, [.drive false]⟩)
      ∨ (d.motionRequest = true ∧ ¬ (¬ InState .extend d ∧ AboveBand d ∧ AboveMin d)
        ∧ ¬ (¬ InState .retract d ∧ BelowBand d ∧ BelowMax d) ∧ InDeadBand d ∧ sampleWork level now r =
        ⟨{ d with motorState := MotorState.stop.code, motorDuty := 0 }, [.halt]⟩)
      ∨ ((d.motionRequest = false ∨ ¬ (¬ InState .extend d ∧ AboveBand d ∧ AboveMin d)
          ∧ ¬ (¬ InState .retract d ∧ BelowBand d ∧ BelowMax d) ∧ ¬ InDeadBand d)
        ∧ interpretStage d = d ∧ sampleWork level now r = applyStage d) := by
  intro d
  have hw : sampleWork level now r = applyStage (interpretStage d) := rfl
  obtain ⟨h0, e⟩ | ⟨h0, h1, h2, h3, e⟩ | ⟨h0, h1, h2, h3, h4, e⟩ | ⟨h0, h1, h2, h3, e⟩ | ⟨h0, h1, h2, h3, e⟩ :=
    interpretStage_cases d <;> rw [hw, e]
  · exact .inr (.inr (.inr ⟨.inl h0, rfl, rfl⟩))
  · refine .inl ⟨h0, h1, h2, h3, ?_⟩
    obtain ⟨h, _⟩ | ⟨h, _, _⟩ | ⟨_, _, a⟩ | ⟨_, _, h, _⟩ := applyStage_cases (toExtend d)
    · exact absurd h (code_ne (m := .extend) (n := .stop) (by decide))
    · exact absurd h (code_ne (m := .extend) (n := .retract) (by decide))
    · rw [a]; rfl
    · exact absurd ⟨rfl, h3⟩ h
  · refine .inr (.inl ⟨h0, h1, h2, h3, h4, ?_⟩)
    obtain ⟨h, _⟩ | ⟨_, _, a⟩ | ⟨h, _, _⟩ | ⟨_, h, _, _⟩ := applyStage_cases (toRetract d)
    · exact absurd h (code_ne (m := .retract) (n := .stop) (by decide))
    · rw [a]; rfl
    · exact absurd h (code_ne (m := .retract) (n := .extend) (by decide))
    · exact absurd ⟨rfl, h4⟩ h
  · refine .inr (.inr (.inl ⟨h0, h1, h2, h3, ?_⟩))
    obtain ⟨_, a⟩ | ⟨h, _, _⟩ | ⟨h, _, _⟩ | ⟨h, _, _, _⟩ := applyStage_cases (toStop d)
    · rw [a]; rfl
    · exact absurd h (code_ne (m := .stop) (n := .retract) (by decide))
    · exact absurd h (code_ne (m := .stop) (n := .extend) (by decide))
    · exact absurd rfl h
  · exact .inr (.inr (.inr ⟨.inr ⟨h1, h2, h3⟩, rfl, rfl⟩))

end Sample

/-! ## the commands -/

/-- A SAMPLE command on a ready state answers exactly this next state. -/
theorem exec_sample {s : State} (h : Ready s) (level : Bool) (now : Nat) :
    exec (.sample level now) s = .next (s.commit (sampleWork level (nowOperand s.cfg now) s.regs)) := by
  cases level <;>
    simp only [Instr.sample, exec, execLo, execHi, onWellFormed, stepSample, if_pos h.1, if_pos h.2]

/-- To show what a SAMPLE command completes with, show it of `sampleWork`. -/
theorem completes_sample {s : State} {level : Bool} {now : Nat} {P : Work s.cfg → Prop} (h : Ready s)
    (hP : P (sampleWork level (nowOperand s.cfg now) s.regs)) : Completes (.sample level now) s P :=
  ⟨_, exec_sample h level now, hP⟩

theorem completes_sample_iff {s : State} {level : Bool} {now : Nat} {P : Work s.cfg → Prop} (h : Ready s) :
    Completes (.sample level now) s P ↔ P (sampleWork level (nowOperand s.cfg now) s.regs) := by
  refine ⟨fun ⟨w, e, hP⟩ => ?_, completes_sample h⟩
  rw [exec_sample h] at e
  rwa [commit_injective (Host.Outcome.next.inj e)]

theorem exec_rst {s : State} (h : s.cfg.wellFormed = true) : exec .rst s = .next (s.commit ⟨Regs.reset s.cfg, []⟩) := by
  simp only [exec, execRst, onWellFormed, if_pos h]

theorem exec_hold {s : State} (h : s.cfg.wellFormed = true) : exec .hold s = .next (s.commit ⟨s.regs, []⟩) := by
  simp only [exec, execHold, onWellFormed, if_pos h]

/-- Every command is RESET, HOLD or a SAMPLE. -/
theorem instr_cases (i : Instr) : i = .rst ∨ i = .hold ∨ ∃ level now, i = .sample level now := by
  cases i with
  | rst => exact .inl rfl
  | hold => exact .inr (.inl rfl)
  | lo now => exact .inr (.inr ⟨false, now, rfl⟩)
  | hi now => exact .inr (.inr ⟨true, now, rfl⟩)

/-- All that a command can do when it answers a next state. -/
theorem exec_next_cases {i : Instr} {s t : State} (h : exec i s = .next t) : s.cfg.wellFormed = true ∧
    ((i = .rst ∧ t = s.commit ⟨Regs.reset s.cfg, []⟩)
      ∨ (i = .hold ∧ t = s.commit ⟨s.regs, []⟩)
      ∨ ∃ level now, i = .sample level now ∧ CodeLegal s.regs
          ∧ t = s.commit (sampleWork level (nowOperand s.cfg now) s.regs)) := by
  by_cases hc : s.cfg.wellFormed = true
  case neg => cases i <;> simp [exec, execRst, execHold, execLo, execHi, onWellFormed, hc] at h
  refine ⟨hc, ?_⟩
  obtain rfl | rfl | ⟨level, now, rfl⟩ := instr_cases i
  · rw [exec_rst hc] at h; cases h; exact .inl ⟨rfl, rfl⟩
  · rw [exec_hold hc] at h; cases h; exact .inr (.inl ⟨rfl, rfl⟩)
  · by_cases hl : CodeLegal s.regs
    · rw [exec_sample ⟨hc, hl⟩] at h; cases h; exact .inr (.inr ⟨level, now, rfl, hl, rfl⟩)
    · exfalso
      cases level <;> simp only [Instr.sample, exec, execLo, execHi, onWellFormed, stepSample, if_pos hc, if_neg hl] at h <;>
        cases h

/-- No command writes the configuration or the host's side of the ports. -/
theorem exec_frame {i : Instr} {s t : State} (h : exec i s = .next t) :
    ∃ w : Work s.cfg, t = s.commit w := by
  obtain ⟨_, ⟨_, rfl⟩ | ⟨_, rfl⟩ | ⟨_, _, _, _, rfl⟩⟩ := exec_next_cases h <;> exact ⟨_, rfl⟩

/-- Every command answers a next state from a ready state. -/
theorem exec_ready {s : State} (h : Ready s) (i : Instr) : ∃ t, exec i s = .next t := by
  obtain rfl | rfl | ⟨level, now, rfl⟩ := instr_cases i
  · exact ⟨_, exec_rst h.1⟩
  · exact ⟨_, exec_hold h.1⟩
  · exact ⟨_, exec_sample h _ _⟩

/-! ## the ports of a step -/

/-- Taking a fixed activation leaves the state it was fixed on. -/
@[simp] theorem consume_feed (s : State) (a : Activation s.cfg.tw) : consume (feed s a) = s := rfl

@[simp] theorem activation_feed (s : State) (a : Activation s.cfg.tw) : activation (feed s a) = a := rfl

@[simp] theorem feed_cfg (s : State) (a : Activation s.cfg.tw) : (feed s a).cfg = s.cfg := rfl
@[simp] theorem withProgram_cfg (s : State) (program : List Instr) : (s.withProgram program).cfg = s.cfg := rfl
@[simp] theorem withProgram_regs (s : State) (program : List Instr) : (s.withProgram program).regs = s.regs := rfl
@[simp] theorem withProgram_trace (s : State) (program : List Instr) : (s.withProgram program).trace = s.trace := rfl

/-- Taking an activation touches only the host's side of the ports. -/
theorem consume_eq (s : State) : ∃ pending draws, consume s = { s with pending := pending, draws := draws } := by
  unfold consume; split
  · exact ⟨_, _, rfl⟩
  · exact ⟨_, _, rfl⟩

@[simp] theorem consume_cfg (s : State) : (consume s).cfg = s.cfg := by
  unfold consume; split <;> rfl

end Sys2Proof.Machine
end

