-- ==== Sys2Proof/Laws/Position.lean ====
section
/-! SUPPORT. The comparisons and counts as integers: the bounds and thresholds at their widths read back as the
configuration's numbers, and in a well-formed configuration a count within the bounds never overflows. -/

namespace Sys2Proof.Machine

variable {c : Config}

theorem aboveMin_iff (wf : c.wellFormed = true) (r : Regs c) : AboveMin r ↔ c.tachMin < r.position.toInt := by
  simp only [AboveMin, tachMinW_toInt wf, gt_iff_lt]

theorem belowMax_iff (wf : c.wellFormed = true) (r : Regs c) : BelowMax r ↔ r.position.toInt < c.tachMax := by
  simp only [BelowMax, tachMaxW_toInt wf]

/-- A hi-time is not in two bands at once. -/
theorem bands_exclusive (wf : c.wellFormed = true) (r : Regs c) :
    ¬ (AboveBand r ∧ BelowBand r) ∧ ¬ (AboveBand r ∧ InDeadBand r) ∧ ¬ (BelowBand r ∧ InDeadBand r) := by
  obtain ⟨_, _, ht, _⟩ := wellFormed_iff.1 wf
  simp only [AboveBand, BelowBand, InDeadBand, hiThreshW_toNat ht, loThreshW_toNat ht]
  have := ht.1
  omega

/-- The value range of a two's complement word. -/
theorem toInt_range {k : Nat} (x : Word (k + 1)) : -((2 ^ k : Nat) : Int) ≤ x.toInt ∧ x.toInt < ((2 ^ k : Nat) : Int) := by
  have hu := BitVec.two_mul_toInt_lt (x := x)
  have hl := BitVec.le_two_mul_toInt (x := x)
  rw [pow_succ] at hu hl
  push_cast
  constructor <;> linarith

/-- Adding a small integer to a word does not overflow where the integer sum is in range. -/
theorem bmod_in_range {k : Nat} {x : Int} (hl : -((2 ^ k : Nat) : Int) ≤ x) (hu : x < ((2 ^ k : Nat) : Int)) :
    x.bmod (2 ^ (k + 1)) = x := by
  rw [Nat.pow_succ, Nat.mul_comm]
  generalize 2 ^ k = m at *
  rw [Int.bmod_eq_of_le] <;> omega

/-- COUNT_UP as integers (R162): "the sum never overflows". -/
theorem increment_toInt (wf : c.wellFormed = true) {p : Word c.pw} (h : p.toInt < c.tachMax) :
    (p + 1).toInt = p.toInt + 1 := by
  obtain ⟨⟨_, hp, _⟩, _, _, ⟨_, _⟩, ⟨_, hu⟩, _⟩ := wellFormed_iff.1 wf
  revert p
  obtain ⟨k, hk⟩ : ∃ k, c.pw = k + 1 := ⟨c.pw - 1, by omega⟩
  rw [hk, Nat.add_sub_cancel] at hu
  rw [hk]
  intro p h
  have := toInt_range p
  rw [show p + 1 = p + 1#(k + 1) from rfl, BitVec.toInt_add, BitVec.toInt_one (by omega), bmod_in_range] <;> omega

/-- COUNT_DOWN as integers (R163): "the difference never overflows". -/
theorem decrement_toInt (wf : c.wellFormed = true) {p : Word c.pw} (h : c.tachMin < p.toInt) :
    (p - 1).toInt = p.toInt - 1 := by
  obtain ⟨⟨_, hp, _⟩, _, _, ⟨_, _⟩, ⟨hl, _⟩, _⟩ := wellFormed_iff.1 wf
  revert p
  obtain ⟨k, hk⟩ : ∃ k, c.pw = k + 1 := ⟨c.pw - 1, by omega⟩
  rw [hk, Nat.add_sub_cancel] at hl
  rw [hk]
  intro p h
  have := toInt_range p
  rw [show p - 1 = p - 1#(k + 1) from rfl, BitVec.toInt_sub, BitVec.toInt_one (by omega), bmod_in_range] <;> omega

/-! ## runs and the invariant -/

/-- A run over two programs in a row. -/
theorem runCommands_append (p q : List Instr) (s : State) : runCommands (p ++ q) s =
    match runCommands p s with
    | .next t => runCommands q t
    | .fault f => .fault f
    | .refused r => .refused r := by
  induction p generalizing s with
  | nil => rfl
  | cons i p ih =>
    simp only [List.cons_append, runCommands]
    cases exec i s <;> simp [ih]

/-- The invariant of the registers, clause by clause: on concrete registers `decide` settles it. -/
theorem regsInv_iff (r : Regs c) : RegsInv r ↔
    CodeLegal r ∧ (c.tachMin ≤ r.position.toInt ∧ r.position.toInt ≤ c.tachMax) ∧ ¬ (RiseArmed r ∧ FallArmed r)
      ∧ (ValidPair r → r.hiTime = r.fallTime - r.riseTime) ∧ (r.motionRequest = true → r.hiTime ≠ 0)
      ∧ (¬ InState .stop r → r.motionRequest = true) ∧ (r.motorDuty = if InState .stop r then 0 else c.motorSpeedW)
      ∧ (InState .extend r → r.motorDir = true) ∧ (InState .retract r → r.motorDir = false) :=
  ⟨fun ⟨a, b, c, d, e, f, g, h⟩ => ⟨a, b, c, d, e, f, g, h⟩, fun ⟨a, b, c, d, e, f, g, h⟩ => ⟨a, b, c, d, e, f, g, h⟩⟩

end Sys2Proof.Machine
end

