-- ==== Sys2Proof/Tests/Slice0.lean ====
section
/-! SUPPORT. The model's own tests: the refusals of the well-formedness checks, words written out from the spec's
encodings, at most two single steps for each command (expected values from spec/95_test_vectors.md), and for each
statement with hypotheses a named witness that meets them. -/

namespace Sys2Proof.Machine.Tests

/-! ## Well-formedness (R6, R7; vectors C-9 and C-10) -/

theorem test_vectors_wellFormed : Config.vectors.wellFormed = true := by decide
theorem test_refuses_tw_1 : Config.wellFormed { Config.vectors with tw := 1, sentinel := 1, hiThresh := 1, loThresh := 0 } = false := by decide
theorem test_refuses_pw_1 : Config.wellFormed { Config.vectors with pw := 1, tachMin := 0, tachMax := 0 } = false := by decide
theorem test_refuses_dw_0 : Config.wellFormed { Config.vectors with dw := 0, motorSpeed := 0 } = false := by decide
theorem test_refuses_sentinel_0 : Config.wellFormed { Config.vectors with sentinel := 0 } = false := by decide
theorem test_refuses_sentinel_wide : Config.wellFormed { Config.vectors with sentinel := 65536 } = false := by decide
theorem test_refuses_empty_band : Config.wellFormed { Config.vectors with hiThresh := 1001 } = false := by decide
theorem test_accepts_band_of_one : Config.wellFormed { Config.vectors with hiThresh := 1002 } = true := by decide
theorem test_refuses_threshold_wide : Config.wellFormed { Config.vectors with hiThresh := 65536 } = false := by decide
theorem test_refuses_min_above_0 : Config.wellFormed { Config.vectors with tachMin := 1 } = false := by decide
theorem test_refuses_max_below_0 : Config.wellFormed { Config.vectors with tachMax := -1 } = false := by decide
theorem test_refuses_min_wide : Config.wellFormed { Config.vectors with tachMin := -32769 } = false := by decide
theorem test_refuses_max_wide : Config.wellFormed { Config.vectors with tachMax := 32768 } = false := by decide
theorem test_refuses_speed_wide : Config.wellFormed { Config.vectors with motorSpeed := 65536 } = false := by decide
theorem test_accepts_speed_0 : Config.wellFormed { Config.vectors with motorSpeed := 0 } = true := by decide
theorem test_refuses_now_wide : ¬ (Instr.hi 65536).WellFormed 16 ∧ (Instr.hi 65535).WellFormed 16 := by decide
theorem test_refuses_pulse_wide : ¬ (Line.pulse 1 65536).WellFormed 16 ∧ (Line.pulse 1 2).WellFormed 16 := by decide

/-! ## Decoding: words written out from R72, R80 and the encodings of P1 -/

theorem test_decode_rst : decodeActivation (⟨0b100#3, 0x0000#16⟩ : Activation 16) = .rst := by decide
theorem test_decode_rst_over_en : decodeActivation (⟨0b111#3, 0xFFFF#16⟩ : Activation 16) = .rst := by decide
theorem test_decode_hold : decodeActivation (⟨0b001#3, 0x0000#16⟩ : Activation 16) = .hold := by decide
theorem test_decode_lo : decodeActivation (⟨0b010#3, 0x0A28#16⟩ : Activation 16) = .lo 2600 := by decide
theorem test_decode_hi : decodeActivation (⟨0b011#3, 0x0064#16⟩ : Activation 16) = .hi 100 := by decide
theorem test_control_word : Control.ofPorts false true true = 0b011#3 ∧ Control.rst 0b100#3 = true
    ∧ Control.en 0b010#3 = true ∧ Control.level 0b001#3 = true := by decide
theorem test_decode_word : decodeWord 16 0b1111111111111111011 = .ok (.hi 65535)
    ∧ decodeWord 16 0b10000000000000000011 = .error .bitsAboveNow := ⟨rfl, rfl⟩
theorem test_encode_word : encodeWord 16 (.hi 100) = 803 ∧ encodeWord 16 .rst = 4 := by decide
theorem test_table_words : decodeTableWord 8 0b100 = some .rst ∧ decodeTableWord 8 0b000 = some .hold
    ∧ decodeTableWord 8 0b010 = some (.lo 0) ∧ decodeTableWord 8 0b011 = some (.hi 0) := by decide
theorem test_encoding_text : encodingText 16 (.lo 2600) = ['0', '1', '0', ':', '0', 'x', '0', 'A', '2', '8'] := by decide

/-! ## One step: states under `V`, by the short names of R10 -/

/-- A state in configuration `c`, its registers given as numbers. -/
def stateIn (c : Config) (r f sr sf hi : Nat) (mr : Bool) (st : MotorState) (pos : Int) (dir : Bool) (duty : Nat) : State :=
  { State.powerUp c with
    regs := ⟨BitVec.ofNat c.tw r, BitVec.ofNat c.tw f, BitVec.ofNat c.tw sr, BitVec.ofNat c.tw sf, BitVec.ofNat c.tw hi, mr,
      st.code, BitVec.ofInt c.pw pos, dir, BitVec.ofNat c.dw duty⟩ }

/-- A state in configuration `V`. -/
abbrev at' (r f sr sf hi : Nat) (mr : Bool) (st : MotorState) (pos : Int) (dir : Bool) (duty : Nat) : State :=
  stateIn Config.vectors r f sr sf hi mr st pos dir duty

/-- The outputs after the step that a word on the ports selects, where it answers a next state. -/
def outputsAfter (s : State) (nbits w : Nat) : Option Outputs :=
  match step (s.withFetchWord nbits w) with
  | .next t => some (outputs t)
  | .fault _ => none
  | .refused _ => none

/-- The end of S-1, which is P1 after line 4. -/
def afterHalt : State := at' 3000 2600 100 2600 2500 false .stop (-2) true 0

/-- C-1: RESET from the end of P1, `now` ignored; `status(S0)` as the spec gives it. -/
theorem test_rst : outputsAfter afterHalt 19 (0x1234 * 8 + 0b100)
    = some ⟨0, 0, 0, 0, 0xFFFFFFFF0000FFFF0000000000000⟩ := by decide

/-- C-3: RESET recovers from the lock-up of P4, here from the reserved code too. -/
theorem test_rst_reserved : outputsAfter { at' 65535 0 65535 0 0 false .stop 0 false 0 with
    regs := { (at' 65535 0 65535 0 0 false .stop 0 false 0).regs with motorState := 0b11#2 } } 3 0b101
    = some ⟨0, 0, 0, 0, 0xFFFFFFFF0000FFFF0000000000000⟩ := by decide

/-- C-4: HOLD from A-3's end state: the duty stays 200, the trace is empty. -/
theorem test_hold : (outputsAfter (at' 100 2600 100 0 2500 true .extend (-2) true 200) 3 0b000).map
    (fun o => (o.motorDir, o.motorDuty, o.cmdCount, o.cmdKind)) = some (1, 200, 0, 0) := by decide

/-- P4 line 8: `LO 900` captures the fall, gives hi-time 500 and retracts. -/
theorem test_lo_retracts : outputsAfter (at' 400 0 65535 0 0 false .stop 0 false 0) 19 (900 * 8 + 0b010)
    = some ⟨0, 200, 1, 0b01, 0x000001900384019001F4000100C86⟩ := by decide

/-- P5 line 2: `LO 500` after a rise at 65000: the wrap suppresses the hi-time, the flag stays 0. -/
theorem test_lo_wrap : (outputsAfter (at' 65000 0 65535 0 0 false .stop 0 false 0) 19 (500 * 8 + 0b010)).map
    (fun o => (o.status / 2 ^ 36 % 2 ^ 16, o.status / 4 % 2, o.cmdCount, o.cmdKind)) = some (0, 0, 1, 0) := by decide

/-- P1 line 5 (S-2): `HI 3100` sets the flag again and keeps STOP at the limit. -/
theorem test_hi_sets_request : outputsAfter afterHalt 19 (3100 * 8 + 0b011)
    = some ⟨1, 0, 1, 0b00, 0x0A2800640A280BB809C4FFFE0000C⟩ := by decide

/-- S-1: `HI 3000` at the limit runs the boundary halt, trace `[Drive, Halt]`. -/
theorem test_hi_boundary_halt :
    exec (.hi 3000) (at' 100 2600 100 0 2500 true .extend (-2) true 200)
      = .next (afterHalt.commit ⟨afterHalt.regs, [.drive true, .halt]⟩) := by rfl

/-- C-8: a SAMPLE step that finds the reserved code faults. -/
theorem test_reserved_faults :
    exec (.lo 0) { State.reset with regs := { State.reset.regs with motorState := 0b11#2 } }
      = .fault .reservedMotorState := by rfl

/-- C-9: an ill-formed configuration is refused. -/
theorem test_ill_formed_refused : step (State.powerUp { Config.vectors with hiThresh := 1001 })
    = .refused .illFormedConfiguration := by
  have h (i : Instr) (s : State) (hs : s.cfg.wellFormed = false) : exec i s = .refused .illFormedConfiguration := by
    cases i <;> simp [exec, execRst, execHold, execLo, execHi, onWellFormed, hs]
  exact h _ _ (by decide)

/-! ## Witnesses: for each statement with hypotheses, a state and operands that meet them, at the ends of the ranges -/

/-- The registers and trace of a SAMPLE step, for the premises that speak of its result. -/
abbrev after (s : State) (level : Bool) (now : Nat) : Work s.cfg := sampleWork level (nowOperand s.cfg now) s.regs

/-- P1 after line 1. -/
def risen : State := at' 100 0 65535 0 0 false .stop 0 false 0
/-- P1 after line 2. -/
def extending : State := at' 100 2600 100 0 2500 true .extend (-1) true 200
/-- S-1's start. -/
def atMin : State := at' 100 2600 100 0 2500 true .extend (-2) true 200
/-- P6 after line 5. -/
def atMax : State := at' 700 1200 700 600 500 true .retract 3 false 200
/-- P2 after line 2. -/
def retracting : State := at' 1000 1500 1000 0 500 true .retract 1 false 200
/-- P4 after line 1: locked. -/
def locked : State := at' 65535 0 65535 0 0 false .stop 0 false 0

theorem risen_ready : Ready risen := by decide
theorem extending_ready : Ready extending := by decide

theorem inv_of {s : State} (hc : s.cfg.wellFormed = true) (ht : s.trace = [])
    (hr : CodeLegal s.regs ∧ (s.cfg.tachMin ≤ s.regs.position.toInt ∧ s.regs.position.toInt ≤ s.cfg.tachMax)
      ∧ ¬ (RiseArmed s.regs ∧ FallArmed s.regs)
      ∧ (ValidPair s.regs → s.regs.hiTime = s.regs.fallTime - s.regs.riseTime)
      ∧ (s.regs.motionRequest = true → s.regs.hiTime ≠ 0) ∧ (¬ InState .stop s.regs → s.regs.motionRequest = true)
      ∧ (s.regs.motorDuty = if InState .stop s.regs then 0 else s.cfg.motorSpeedW)
      ∧ (InState .extend s.regs → s.regs.motorDir = true) ∧ (InState .retract s.regs → s.regs.motorDir = false)) : s.Inv :=
  ⟨hc, (regsInv_iff _).2 hr, .inl ht⟩

theorem witness_DecodeOfEncodedCommand : (Instr.hi 65535).WellFormed 16 ∧ (Instr.lo 0).WellFormed 16
    ∧ Instr.rst.WellFormed 16 ∧ Instr.hold.WellFormed 16 := by decide
theorem witness_EncodeOfDecodedWord : decodeWord 16 (2 ^ 19 - 1 - 4) = .ok (.sample true 65535)
    ∧ decodeWord 16 2 = .ok (.sample false 0) ∧ decodeWord 16 (2 ^ 19) = .error .bitsAboveNow := ⟨rfl, rfl, rfl⟩
theorem witness_StepRunsTheSelectedCommand : (feed State.reset (encode 16 .hold)).pending = encode 16 .hold :: []
    ∧ State.reset.pending = [] := ⟨rfl, rfl⟩
theorem witness_FetchWordRunsNext : 803 < 2 ^ 19 ∧ decodeWord State.reset.cfg.tw 803 = .ok (.hi 100) := ⟨by decide, rfl⟩
theorem witness_RunOfAProgramIsItsCommands :
    ∀ i ∈ [Instr.rst, .hi 100, .lo 2600, .hold], i.WellFormed State.reset.cfg.tw := by decide
theorem witness_ResetAndHoldIgnoreTheirInputs :
    (Control.rst 0b100#3 = true ∧ Control.rst 0b111#3 = true)
      ∧ (Control.rst 0b000#3 = false ∧ Control.en 0b000#3 = false ∧ Control.rst 0b001#3 = false
        ∧ Control.en 0b001#3 = false) := by decide
theorem witness_EveryReadyStepCompletes : Ready State.reset ∧ Ready extending ∧ Ready atMax := by decide
theorem witness_CommandsStopExactlyWhereSaid :
    State.reset.cfg.wellFormed = true ∧ (MotorState.stop.code ≠ 0b11#2) ∧ Instr.hi 0 = .sample true 0 := by decide
theorem witness_ResetWritesEveryRegister : afterHalt.cfg.wellFormed = true := by decide
theorem witness_HoldChangesNoRegister : extending.cfg.wellFormed = true := by decide
theorem witness_ResetGivesThePowerUpState : locked.cfg.wellFormed = true := by decide
theorem witness_ConfigurationIsNeverWritten : ∃ t, step (State.reset.withFetchWord 19 803) = .next t := ⟨_, rfl⟩
theorem witness_FirstHighSampleCapturesRise : Ready State.reset ∧ RiseArmed State.reset.regs := by decide
theorem witness_FurtherHighSampleCapturesNothing : Ready risen ∧ risen.regs.fallTime = risen.regs.lastSeenFall := by decide
theorem witness_FirstLowSampleCapturesFall : Ready risen ∧ FallArmed risen.regs := by decide
theorem witness_FurtherLowSampleCapturesNothing :
    Ready State.reset ∧ State.reset.regs.riseTime = State.reset.regs.lastSeenRise := by decide
/-- DEC-4, and the shortest and the longest pulse (DEC-8). -/
theorem witness_HiTimeUpdatedFromValidPair : Ready risen ∧ ValidPair (after risen false 1600).regs
    ∧ ValidPair (after risen false 101).regs
    ∧ ValidPair (after (at' 0 0 65535 0 0 false .stop 0 false 0) false 65535).regs := by decide
/-- DEC-7 (rise and fall at one `now`) and P5 line 2. -/
theorem witness_HiTimeRetainedWithoutValidPair : Ready risen
    ∧ (after risen false 100).regs.fallTime.toNat ≤ (after risen false 100).regs.riseTime.toNat
    ∧ (after (at' 65000 0 65535 0 0 false .stop 0 false 0) false 500).regs.fallTime.toNat
      ≤ (after (at' 65000 0 65535 0 0 false .stop 0 false 0) false 500).regs.riseTime.toNat := by decide
theorem witness_MotionRequestFollowsHiTime : Ready atMin ∧ HaltedAtBoundary (after atMin true 3000).trace
    ∧ ¬ HaltedAtBoundary (after afterHalt true 3100).trace :=
  ⟨by decide, ⟨true, by decide⟩, fun ⟨d, h⟩ => by cases d <;> revert h <;> decide⟩
theorem witness_HiTimeStaysNonZero : Ready extending ∧ extending.regs.hiTime ≠ 0 := by decide
theorem witness_CaptureArmsTheOtherEdge : Ready State.reset ∧ RiseArmed State.reset.regs ∧ ¬ FallArmed State.reset.regs
    ∧ Ready risen ∧ FallArmed risen.regs ∧ ¬ RiseArmed risen.regs
    ∧ State.reset.regs.lastSeenRise.toNat = 65535 ∧ risen.regs.lastSeenFall.toNat = 0 := by decide
theorem locked_inv : locked.Inv := inv_of (by decide) rfl (by decide)
theorem witness_LockUpLastsUntilReset : locked.Inv ∧ Locked locked.regs
    ∧ Instr.rst ∉ [Instr.lo 200, .hold, .hi 400, .lo 900] := ⟨locked_inv, ⟨by decide, by decide⟩, by decide⟩
theorem witness_FirstRiseAtSentinelLocks : Config.vectors.wellFormed = true ∧ Config.vectors.sentinel < 2 ^ Config.vectors.tw
    ∧ 100 < 2 ^ Config.vectors.tw := by decide
/-- DEC-15 and DEC-16. -/
theorem witness_TimerWrapEffects :
    (Ready (at' 65000 0 65535 0 0 false .stop 0 false 0) ∧ FallArmed (at' 65000 0 65535 0 0 false .stop 0 false 0).regs
        ∧ 500 < (at' 65000 0 65535 0 0 false .stop 0 false 0).regs.riseTime.toNat)
      ∧ (Ready (at' 64000 65400 64000 0 1400 true .stop 0 false 0)
        ∧ RiseArmed (at' 64000 65400 64000 0 1400 true .stop 0 false 0).regs
        ∧ 100 < (at' 64000 65400 64000 0 1400 true .stop 0 false 0).regs.fallTime.toNat) := by decide
theorem witness_NothingHappensBeforeTheFirstRise : Config.vectors.wellFormed = true
    ∧ ∀ i ∈ [Instr.lo 50, .hold], i = .hold ∨ ∃ now, i = .lo now := by
  refine ⟨by decide, fun i h => ?_⟩
  simp only [List.mem_cons, List.not_mem_nil, or_false] at h
  exact h.elim (fun h => .inr ⟨50, h⟩) .inl
/-- One pulse of three SAMPLE steps at ticks 100, 101, 102. -/
theorem witness_PulseHiTimeIsExact : Ready State.reset ∧ RiseArmed State.reset.regs
    ∧ TimerLift 16 (fun k => 100 + min k 2) (fun k => BitVec.ofNat 16 (100 + min k 2))
    ∧ NoWrap 16 (fun k => 100 + min k 2) 0 2 ∧ (fun k => 100 + min k 2) 0 < (fun k => 100 + min k 2) 2
    ∧ ((fun k => BitVec.ofNat 16 (100 + min k 2)) 0).toNat ≠ State.reset.regs.lastSeenRise.toNat :=
  ⟨by decide, by decide, ⟨fun k => by simp only; omega, fun k => by simp⟩, by simp [NoWrap], by decide, by decide⟩
/-- Two rises (and two falls) of the same edge at ticks 100 and 1700, and the longest advance, `2^16 - 1`. -/
theorem witness_AdvancingTimerDoesNotLock :
    TimerLift 16 (fun k => 100 + 1600 * k) (fun k => BitVec.ofNat 16 (100 + 1600 * k))
      ∧ Advances 16 (fun k => 100 + 1600 * k) 0 1 ∧ Advances 16 (fun k => 65535 * k) 0 1
      ∧ Ready (at' 100 1600 100 0 1500 true .stop 0 false 0) ∧ RiseArmed (at' 100 1600 100 0 1500 true .stop 0 false 0).regs
      ∧ (at' 100 1600 100 0 1500 true .stop 0 false 0).regs.lastSeenRise.toNat = (BitVec.ofNat 16 100).toNat
      ∧ FallArmed (at' 1700 100 50 100 50 true .stop 0 false 0).regs
      ∧ (at' 1700 100 50 100 50 true .stop 0 false 0).regs.lastSeenFall.toNat = (BitVec.ofNat 16 100).toNat :=
  ⟨⟨fun k => by simp only; omega, fun k => by simp⟩, by simp [Advances], by simp [Advances], by decide, by decide,
    by decide, by decide, by decide⟩
theorem witness_NowMattersOnlyToACapture : ¬ RiseArmed risen.regs ∧ ¬ FallArmed State.reset.regs
    ∧ exec (.hi 1) risen = .next (risen.commit (after risen true 1)) := ⟨by decide, by decide, rfl⟩
/-- P1 line 2, and T-A's first hi-time above the band, one above `TACH_MIN`. -/
theorem witness_HighHiTimeExtends : Ready risen ∧ Requested risen.regs (after risen false 2101).regs
    ∧ ¬ InState .extend risen.regs ∧ AboveBand (after risen false 2101).regs ∧ AboveMin risen.regs
    ∧ AboveMin (at' 100 0 65535 0 0 false .stop (-1) false 0).regs ∧ ¬ AboveMin atMin.regs := by decide
/-- I-8 and I-22: the last hi-time below the band, and the smallest, one below `TACH_MAX`. -/
theorem witness_LowHiTimeRetracts : Ready risen ∧ Requested risen.regs (after risen false 1099).regs
    ∧ ¬ InState .retract risen.regs ∧ BelowBand (after risen false 1099).regs ∧ BelowMax risen.regs
    ∧ BelowBand (after risen false 101).regs ∧ BelowMax (at' 100 0 65535 0 0 false .stop 2 false 0).regs
    ∧ ¬ BelowMax atMax.regs := by decide
/-- I-10 and I-11: both ends of the dead-band, and I-6 and I-7 just outside it. -/
theorem witness_DeadBandStops : Ready risen ∧ Requested risen.regs (after risen false 1101).regs
    ∧ InDeadBand (after risen false 1101).regs ∧ InDeadBand (after risen false 2099).regs
    ∧ ¬ InDeadBand (after risen false 1100).regs ∧ ¬ InDeadBand (after risen false 2100).regs := by decide
/-- The premises of `LastStatePersists`. -/
abbrev Persisting (s : State) (level : Bool) (now : Nat) : Prop := Ready s ∧ Requested s.regs (after s level now).regs
  ∧ ¬ (¬ InState .extend s.regs ∧ AboveBand (after s level now).regs ∧ AboveMin s.regs)
  ∧ ¬ (¬ InState .retract s.regs ∧ BelowBand (after s level now).regs ∧ BelowMax s.regs)
  ∧ ¬ InDeadBand (after s level now).regs

/-- The premises of PERSIST hold and one clause of what apply does: STOP at the limit (T-B), RETRACT (S-3), EXTEND (P1
line 3), and the halts at both limits (S-1, P6 line 6). -/
theorem witness_LastStatePersists :
    (Persisting afterHalt true 3100 ∧ InState .stop afterHalt.regs)
      ∧ (Persisting retracting true 11000 ∧ InState .retract retracting.regs ∧ BelowMax retracting.regs)
      ∧ (Persisting extending false 2700 ∧ InState .extend extending.regs ∧ AboveMin extending.regs)
      ∧ (Persisting atMin true 3000 ∧ InState .extend atMin.regs ∧ ¬ AboveMin atMin.regs)
      ∧ (Persisting atMax true 1300 ∧ InState .retract atMax.regs ∧ ¬ BelowMax atMax.regs) :=
  ⟨by decide, by decide, by decide, by decide, by decide⟩

/-- The premises of `InterpretSkippedWithoutRequest`. -/
abbrev Unrequested (s : State) (level : Bool) (now : Nat) : Prop :=
  Ready s ∧ ¬ Requested s.regs (after s level now).regs

/-- The gate is closed: after power-up (C-7), and in moving states that no run reaches, one for each clause. -/
theorem witness_InterpretSkippedWithoutRequest :
    Unrequested State.reset true 100
      ∧ (Unrequested (at' 65535 0 65535 0 0 false .retract 2 false 0) false 5
        ∧ BelowMax (at' 65535 0 65535 0 0 false .retract 2 false 0).regs)
      ∧ (Unrequested (at' 65535 0 65535 0 0 false .extend (-1) true 0) false 5
        ∧ AboveMin (at' 65535 0 65535 0 0 false .extend (-1) true 0).regs)
      ∧ (Unrequested (at' 65535 0 65535 0 0 false .extend (-2) true 0) false 5
        ∧ ¬ AboveMin (at' 65535 0 65535 0 0 false .extend (-2) true 0).regs)
      ∧ (Unrequested (at' 65535 0 65535 0 0 false .retract 3 false 0) false 5
        ∧ ¬ BelowMax (at' 65535 0 65535 0 0 false .retract 3 false 0).regs) := by decide
theorem witness_SecondInterpretChangesNothing : Config.vectors.wellFormed = true := by decide
/-- I-15, I-3 and S-1: each way out of EXTEND is taken. -/
theorem witness_WaysOutOfExtend : Ready extending ∧ InState .extend extending.regs
    ∧ InState .retract (after (at' 3000 2600 100 2600 2500 true .extend 0 true 200) false 3500).regs
    ∧ InState .stop (after (at' 3000 2600 100 2600 2500 true .extend 0 true 200) false 4500).regs
    ∧ ¬ InState .extend (after atMin true 3000).regs := by decide
theorem witness_DirectionBitChangesOnlyOnEntry : Ready risen
    ∧ (after risen false 2600).regs.motorDir ≠ risen.regs.motorDir
    ∧ (after (at' 3000 2600 100 2600 2500 true .extend 0 true 200) false 3500).regs.motorDir ≠ true := by decide

/-- EXTEND at `TACH_MAX` with a rise just captured (I-16). -/
def extendAtMax : State := at' 3000 2600 100 2600 2500 true .extend 3 true 200
/-- RETRACT at `TACH_MIN` with a rise just captured (I-17). -/
def retractAtMin : State := at' 3000 1100 600 1100 500 true .retract (-2) false 200
/-- `V` with `TACH_MIN = TACH_MAX = 0`. -/
def pinned : Config := { Config.vectors with tachMin := 0, tachMax := 0 }
/-- EXTEND at position 0 in `pinned`, as R139 and A-4's note take it. -/
def extendPinned : State := stateIn pinned 3000 2600 100 2600 2500 true .extend 0 true 200
/-- RETRACT at position 0 in `pinned`. -/
def retractPinned : State := stateIn pinned 3000 1100 600 1100 500 true .retract 0 false 200

theorem witness_OppositeRequestAtALimit :
    (extendAtMax.Inv ∧ InState .extend extendAtMax.regs ∧ extendAtMax.regs.position.toInt = extendAtMax.cfg.tachMax
        ∧ BelowBand (after extendAtMax false 3999).regs ∧ extendAtMax.cfg.tachMin < extendAtMax.cfg.tachMax)
      ∧ (retractAtMin.Inv ∧ InState .retract retractAtMin.regs ∧ retractAtMin.regs.position.toInt = retractAtMin.cfg.tachMin
        ∧ AboveBand (after retractAtMin false 5001).regs)
      ∧ (extendPinned.Inv ∧ extendPinned.regs.position.toInt = extendPinned.cfg.tachMax
        ∧ BelowBand (after extendPinned false 3999).regs ∧ extendPinned.cfg.tachMin = extendPinned.cfg.tachMax)
      ∧ (retractPinned.Inv ∧ retractPinned.regs.position.toInt = retractPinned.cfg.tachMin
        ∧ AboveBand (after retractPinned false 5001).regs) :=
  ⟨⟨inv_of (by decide) rfl (by decide), by decide⟩, ⟨inv_of (by decide) rfl (by decide), by decide⟩,
    ⟨inv_of (by decide) rfl (by decide), by decide⟩, ⟨inv_of (by decide) rfl (by decide), by decide⟩⟩
/-- A-6 up to `TACH_MAX`, A-3 down to `TACH_MIN`, and the halts at both limits. -/
theorem witness_CountFollowsMotorState : Ready retracting
    ∧ InState .retract (after (at' 1000 1500 1000 0 500 true .retract 2 false 200) true 11000).regs
    ∧ InState .extend (after extending false 2700).regs ∧ ¬ InState .extend (after atMin true 3000).regs
    ∧ ¬ InState .retract (after atMax true 1300).regs := by decide
/-- A-7 and the dead-band from EXTEND. -/
theorem witness_HaltWhileStopped : Ready State.reset
    ∧ InState .stop (interpretStage (decodeStage true (nowOperand State.reset.cfg 100) State.reset.regs))
    ∧ InState .stop (interpretStage (decodeStage false (nowOperand Config.vectors 4500)
      (at' 3000 2600 100 2600 2500 true .extend 0 true 200).regs))
    ∧ (after atMin true 3000).trace ≠ [.halt] := by decide
theorem atMin_inv : atMin.Inv := inv_of (by decide) rfl (by decide)
theorem atMax_inv : atMax.Inv := inv_of (by decide) rfl (by decide)
theorem witness_BoundaryHaltOnlyAtTheLimit : atMin.Inv ∧ HaltedAtBoundary (after atMin true 3000).trace
    ∧ atMax.Inv ∧ HaltedAtBoundary (after atMax true 1300).trace :=
  ⟨atMin_inv, ⟨true, by decide⟩, atMax_inv, ⟨false, by decide⟩⟩
theorem witness_PositionStaysInBounds : atMin.cfg.wellFormed = true
    ∧ (atMin.cfg.tachMin ≤ atMin.regs.position.toInt ∧ atMin.regs.position.toInt ≤ atMin.cfg.tachMax)
    ∧ ∃ t, step (atMin.withFetchWord 19 (3000 * 8 + 3)) = .next t := ⟨by decide, by decide, _, rfl⟩
theorem witness_PositionMovesExactlyWhenDriven : Ready extending
    ∧ (after extending false 2700).regs.position ≠ extending.regs.position
    ∧ (after atMin true 3000).regs.position = atMin.regs.position := by decide
theorem witness_MotionRequestClearIsTransient : atMin.Inv ∧ HaltedAtBoundary (after atMin true 3000).trace :=
  ⟨atMin_inv, true, by decide⟩

/-- EXTEND at position 0, a rise captured after the fall: HIGH samples change no timestamp (T-D). -/
def extendHeld : State := at' 3000 2600 100 2600 2500 true .extend 0 true 200

theorem witness_ExtendRunsToTheLimitAndHalts : extendHeld.Inv ∧ InState .extend extendHeld.regs
    ∧ AboveBand extendHeld.regs ∧ ¬ RiseArmed extendHeld.regs
    ∧ extendHeld.regs.position.toInt = extendHeld.cfg.tachMin + (2 : Nat) :=
  ⟨inv_of (by decide) rfl (by decide), by decide⟩
theorem witness_SampleFrameAndTrace : Ready risen ∧ (after risen false 1600).regs.hiTime ≠ risen.regs.hiTime := by decide
theorem witness_SubOperationsAccountForTheStep : Ready extending
    ∧ subOperations true (nowOperand atMin.cfg 3000) atMin.regs = [.capture .captureRise, .hitime .retain,
      .motionRequestSet, .interpret .persist, .drive, .apply .boundaryHalt] := by decide
theorem witness_StatusDeterminesTheRegisters : statusPort extending.regs = statusPort extending.regs
    ∧ (statusPort extending.regs).toNat ≠ (statusPort atMin.regs).toNat := ⟨rfl, by decide⟩
theorem witness_CommandPortsShowTheTrace : (∃ t, exec .hold extending = .next t)
    ∧ (∃ t, exec (.hi 3000) atMin = .next t ∧ t.trace = [.drive true, .halt])
    ∧ (∃ t, exec (.lo 2700) extending = .next t ∧ t.trace = [.drive true])
    ∧ ∃ t, exec (.hi 100) State.reset = .next t ∧ t.trace = [.halt] := ⟨⟨_, rfl⟩, ⟨_, rfl, rfl⟩, ⟨_, rfl, rfl⟩, ⟨_, rfl, rfl⟩⟩
theorem witness_ObservationCoversTheRun : ∃ t, runCommands [.hi 100] State.reset = .next t := ⟨_, rfl⟩
theorem witness_PowerUpMeetsTheInvariant : Config.vectors.wellFormed = true ∧ pinned.wellFormed = true := by decide
theorem witness_EveryStepKeepsTheInvariant : atMin.Inv ∧ ∃ t, step (atMin.withFetchWord 19 (3000 * 8 + 3)) = .next t :=
  ⟨atMin_inv, _, rfl⟩
theorem witness_RunsFromPowerUpNeverStop : Config.vectors.wellFormed = true := by decide

end Sys2Proof.Machine.Tests
end

/-! PROOFS. The PWM Decoder (spec/41_pwm_decoder.md R101 to R106): what a SAMPLE step makes of the timestamps and of
the hi-time. -/

namespace Sys2Proof.Machine

/-! ## hi-time -/

section HiTime
variable {c : Config}

/-- The hi-time in terms of the step's own end, since nothing after decode writes a timestamp or `hiTime`. -/
theorem sampleWork_hiTime_eq_ite (level : Bool) (now : Word c.tw) (r : Regs c) :
    (sampleWork level now r).regs.hiTime =
      if ValidPair (sampleWork level now r).regs
      then (sampleWork level now r).regs.fallTime - (sampleWork level now r).regs.riseTime else r.hiTime := by
  rw [sampleWork_hiTime, decodeStage_hiTime]
  simp only [ValidPair, sampleWork_riseTime, sampleWork_fallTime, decodeStage_riseTime, decodeStage_fallTime]

/-- On a valid pair the difference of the timestamps does not wrap (R105). -/
theorem validPair_sub_toNat {r : Regs c} (h : ValidPair r) :
    (r.fallTime - r.riseTime).toNat = r.fallTime.toNat - r.riseTime.toNat :=
  BitVec.toNat_sub_of_le (BitVec.le_def.2 h.le)

end HiTime

/-- Settles O21: the step ends in the branch of a valid pair, where the difference does not wrap. -/
theorem hiTimeUpdatedFromValidPair : Obligations.HiTimeUpdatedFromValidPair := by
  intro s level now hs
  refine completes_sample hs fun (hv : ValidPair (sampleWork level _ s.regs).regs) => ?_
  rw [sampleWork_hiTime_eq_ite, if_pos hv, validPair_sub_toNat hv]
  exact ⟨rfl, Nat.sub_pos_of_lt hv⟩

/-- Settles O22: the step ends in the other branch of the hi-time. -/
theorem hiTimeRetainedWithoutValidPair : Obligations.HiTimeRetainedWithoutValidPair := by
  intro s level now hs
  refine completes_sample hs fun hle => ?_
  rw [sampleWork_hiTime_eq_ite, if_neg (Nat.not_lt.2 hle)]

/-! ## captures -/

/-- A SAMPLE step keeps the timestamps where its capture part keeps the registers (R102, R104). -/
theorem sampleWork_sameTimestamps {c : Config} {level : Bool} {now : Word c.tw} {r : Regs c}
    (h : captureStage level now r = r) : SameTimestamps r (sampleWork level now r).regs := by
  simp [SameTimestamps, h]

/-- Settles O17: a HIGH sample of a rise-armed block is CAPTURE_RISE (R101). -/
theorem firstHighSampleCapturesRise : Obligations.FirstHighSampleCapturesRise := by
  intro s now hs armed
  refine completes_sample (level := true) hs ?_
  simp [captureStage_high_armed _ armed, nowOperand]

/-- Settles O18: a HIGH sample of a block that is not rise-armed captures nothing (R102). -/
theorem furtherHighSampleCapturesNothing : Obligations.FurtherHighSampleCapturesNothing := by
  intro s now hs hshadow
  exact completes_sample (level := true) hs
    (sampleWork_sameTimestamps (captureStage_high_disarmed _ (not_not.2 hshadow)))

/-- Settles O19: a LOW sample of a fall-armed block is CAPTURE_FALL (R103). -/
theorem firstLowSampleCapturesFall : Obligations.FirstLowSampleCapturesFall := by
  intro s now hs armed
  refine completes_sample (level := false) hs ?_
  simp [captureStage_low_armed _ armed, nowOperand]

end Sys2Proof.Machine

/-! PROOFS. The Motion State Machine (spec/42_motion_state_machine.md R133): what a SAMPLE step does in the dead-band. -/

namespace Sys2Proof.Machine

section DeadBand
variable {c : Config} {level : Bool} {now : Word c.tw} {r : Regs c}

/-- The gate of interpret (R130) read off the step's own end: the flag as decode left it (R107). -/
theorem requested_sampleWork_iff :
    Requested r (sampleWork level now r).regs ↔ (decodeStage level now r).motionRequest = true := by
  simp [Requested, sampleWork_hiTime, decodeStage_motionRequest]

/-- Nothing after decode moves the hi-time into the dead-band or out of it. -/
theorem inDeadBand_sampleWork_iff :
    InDeadBand (sampleWork level now r).regs ↔ InDeadBand (decodeStage level now r) := by
  rw [InDeadBand, sampleWork_hiTime]

/-- In the dead-band neither other transition's hi-time condition holds, so TO_STOP is selected from any state and at
any position, and apply halts (R133, R165). -/
theorem sampleWork_of_inDeadBand (wf : c.wellFormed = true) (hreq : (decodeStage level now r).motionRequest = true)
    (hband : InDeadBand (decodeStage level now r)) : sampleWork level now r =
      ⟨{ decodeStage level now r with motorState := MotorState.stop.code, motorDuty := 0 }, [.halt]⟩ := by
  obtain ⟨_, notAbove, notBelow⟩ := bands_exclusive wf (decodeStage level now r)
  obtain ⟨_, _, above, _⟩ | ⟨_, _, _, below, _⟩ | ⟨_, _, _, _, stopped⟩ | ⟨skipped | ⟨_, _, outside⟩, _⟩ :=
    sampleWork_cases level now r
  · exact absurd ⟨above, hband⟩ notAbove
  · exact absurd ⟨below, hband⟩ notBelow
  · exact stopped
  · exact absurd (hreq.symm.trans skipped) (by decide)
  · exact absurd hband outside

end DeadBand

/-- Settles O35: the step is TO_STOP followed by HALT, on the registers as decode left them. -/
theorem deadBandStops : Obligations.DeadBandStops := by
  intro s level now hs
  refine completes_sample hs fun hreq hband => ?_
  rw [requested_sampleWork_iff] at hreq
  rw [inDeadBand_sampleWork_iff] at hband
  rw [sampleWork_of_inDeadBand hs.1 hreq hband]
  exact ⟨rfl, decodeStage_motorDir .., decodeStage_position .., rfl, hreq, rfl⟩

end Sys2Proof.Machine

/-! PROOFS. The Bounded Position Tracker (spec/43_position_tracker.md R162, R163, R165): where a SAMPLE step counts, and
where it halts without driving. -/

namespace Sys2Proof.Machine

/-- The codes of two motor states are equal only where the states are (R74). -/
@[simp] theorem MotorState.code_inj {m n : MotorState} : m.code = n.code ↔ m = n :=
  ⟨fun h => by_contra fun hne => code_ne hne h, congrArg _⟩

section Apply
variable {c : Config} (r : Regs c)

/-- Apply keeps RETRACT and EXTEND exactly where it counts, and there it leaves the flag; from every other state it ends
in STOP (R162 to R165). -/
theorem applyStage_counts (wf : c.wellFormed = true) : let e := (applyStage r).regs
    (InState .retract e ↔ InState .retract r ∧ r.position.toInt < c.tachMax)
      ∧ (InState .retract e → e.position.toInt = r.position.toInt + 1 ∧ e.motionRequest = r.motionRequest)
      ∧ (InState .extend e ↔ InState .extend r ∧ r.position.toInt > c.tachMin)
      ∧ (InState .extend e → e.position.toInt = r.position.toInt - 1 ∧ e.motionRequest = r.motionRequest) := by
  rw [gt_iff_lt, ← belowMax_iff wf, ← aboveMin_iff wf]
  obtain ⟨stopped, a⟩ | ⟨retracting, below, a⟩ | ⟨extending, above, a⟩ | ⟨_, noCountUp, noCountDown, a⟩ :=
    applyStage_cases r <;> rw [a]
  · simp [InState, stopped]
  · simp only [increment_toInt wf ((belowMax_iff wf r).1 below)]
    simp [InState, retracting, below]
  · simp only [decrement_toInt wf ((aboveMin_iff wf r).1 above)]
    simp [InState, extending, above]
  · simp only [noCountUp, noCountDown]
    simp [InState]

/-- HALT (R165): apply writes the duty and nothing else. -/
theorem applyStage_halt {r : Regs c} (stopped : InState .stop r) :
    applyStage r = ⟨{ r with motorDuty := 0 }, [.halt]⟩ := by
  obtain ⟨_, a⟩ | ⟨retracting, _⟩ | ⟨extending, _⟩ | ⟨moving, _⟩ := applyStage_cases r
  · exact a
  · exact absurd (inState_unique stopped retracting) (by decide)
  · exact absurd (inState_unique stopped extending) (by decide)
  · exact absurd stopped moving

/-- Apply emits Halt alone only from STOP: from any other state it drives first (R161). -/
theorem applyStage_trace_eq_halt_iff : (applyStage r).trace = [.halt] ↔ InState .stop r := by
  refine ⟨fun halted => ?_, fun stopped => by rw [applyStage_halt stopped]⟩
  obtain ⟨stopped, _⟩ | ⟨_, _, a⟩ | ⟨_, _, a⟩ | ⟨_, _, _, a⟩ := applyStage_cases r
  · exact stopped
  all_goals simp [a] at halted

/-- Where interpret leaves STOP it has not written the direction bit (R133). -/
theorem interpretStage_motorDir_of_stop {r : Regs c} (stopped : InState .stop (interpretStage r)) :
    (interpretStage r).motorDir = r.motorDir := by
  obtain ⟨_, e⟩ | ⟨_, _, _, _, e⟩ | ⟨_, _, _, _, _, e⟩ | ⟨_, _, _, _, e⟩ | ⟨_, _, _, _, e⟩ := interpretStage_cases r <;>
    rw [e] at stopped ⊢
  · exact absurd stopped (code_ne (m := .extend) (n := .stop) (by decide))
  · exact absurd stopped (code_ne (m := .retract) (n := .stop) (by decide))
  · rfl

end Apply

/-- Settles O42: apply counts on what interpret left, at the position the step found. -/
theorem countFollowsMotorState : Obligations.CountFollowsMotorState := by
  intro s level now hs m
  have pos : m.position = s.regs.position := by simp [m]
  have counts := applyStage_counts m hs.1
  rw [pos] at counts
  exact completes_sample hs counts

/-- Settles O43: apply halts alone only from STOP, and there interpret has written neither `position` nor `motorDir`. -/
theorem haltWhileStopped : Obligations.HaltWhileStopped := by
  intro s level now hs m
  refine completes_sample hs ⟨applyStage_trace_eq_halt_iff m, fun stopped => ?_⟩
  have work : sampleWork level (nowOperand s.cfg now) s.regs = ⟨{ m with motorDuty := 0 }, [.halt]⟩ :=
    applyStage_halt stopped
  have dir : m.motorDir = s.regs.motorDir :=
    (interpretStage_motorDir_of_stop stopped).trans (decodeStage_motorDir ..)
  rw [work]
  exact ⟨rfl, by simp [m], dir⟩

end Sys2Proof.Machine

/-! PROOFS. Encodings (spec/30_encoding.md R71, R72, R80, R81): the word form and the decoder invert each other, and the
opcode table agrees with the decoder. -/

namespace Sys2Proof

/-! ## activations as words -/

section Words
variable {tw : Nat}

/-- The word of the ports has no bit above its `TW + 3`. -/
theorem Activation.toWord_lt (a : Activation tw) : a.toWord < 2 ^ (tw + 3) := by
  have hnow := a.now.isLt
  have hctrl := a.ctrl.isLt
  rw [Activation.toWord, pow_add]
  omega

theorem Activation.ofWord_toWord (a : Activation tw) : Activation.ofWord tw a.toWord = a := by
  obtain ⟨ctrl, now⟩ := a
  have hctrl := ctrl.isLt
  have high : (now.toNat * 8 + ctrl.toNat) >>> 3 = now.toNat := by rw [Nat.shiftRight_eq_div_pow]; omega
  have low : (now.toNat * 8 + ctrl.toNat) % 2 ^ 3 = ctrl.toNat := by omega
  simp only [Activation.ofWord, Activation.toWord, Activation.mk.injEq]
  exact ⟨BitVec.eq_of_toNat_eq (by rw [BitVec.toNat_ofNat, low]), by rw [high, BitVec.ofNat_toNat, BitVec.setWidth_eq]⟩

theorem Activation.toWord_ofWord {w : Nat} (h : w < 2 ^ (tw + 3)) : (Activation.ofWord tw w).toWord = w := by
  have high : w / 2 ^ 3 < 2 ^ tw := by rw [pow_add] at h; omega
  simp only [Activation.ofWord, Activation.toWord, BitVec.toNat_ofNat, Nat.shiftRight_eq_div_pow,
    Nat.mod_eq_of_lt high]
  omega

theorem decodeWord_toWord (a : Activation tw) : decodeWord tw a.toWord = .ok (decodeActivation a) := by
  rw [decodeWord, if_pos a.toWord_lt, a.ofWord_toWord]

/-- What the word decoder gives is what the ports of the word select. -/
theorem decodeWord_eq_ok_iff {w : Nat} {i : Instr} : decodeWord tw w = .ok i ↔
    w < 2 ^ (tw + 3) ∧ decodeActivation (Activation.ofWord tw w) = i := by
  unfold decodeWord
  by_cases h : w < 2 ^ (tw + 3) <;> simp [h]

theorem decodeWord_eq_error_iff {w : Nat} : decodeWord tw w = .error .bitsAboveNow ↔ 2 ^ (tw + 3) ≤ w := by
  unfold decodeWord
  by_cases h : w < 2 ^ (tw + 3) <;> simp [h]
  omega

end Words

/-! ## the decoder on the ports -/

section Ports
variable {tw : Nat} {a : Activation tw}

theorem decodeActivation_of_rst (h : Control.rst a.ctrl = true) : decodeActivation a = .rst := by
  simp [decodeActivation, h]

theorem decodeActivation_of_hold (hr : Control.rst a.ctrl = false) (he : Control.en a.ctrl = false) :
    decodeActivation a = .hold := by
  simp [decodeActivation, hr, he]

theorem decodeActivation_of_sample (hr : Control.rst a.ctrl = false) (he : Control.en a.ctrl = true) :
    decodeActivation a = .sample (Control.level a.ctrl) a.now.toNat := by
  simp [decodeActivation, hr, he]

/-- All that the decoder can give (R72). -/
theorem decodeActivation_cases (a : Activation tw) :
    (Control.rst a.ctrl = true ∧ decodeActivation a = .rst)
      ∨ (Control.rst a.ctrl = false ∧ Control.en a.ctrl = false ∧ decodeActivation a = .hold)
      ∨ (Control.rst a.ctrl = false ∧ Control.en a.ctrl = true
        ∧ decodeActivation a = .sample (Control.level a.ctrl) a.now.toNat) := by
  cases hr : Control.rst a.ctrl
  · cases he : Control.en a.ctrl
    · exact .inr (.inl ⟨rfl, rfl, decodeActivation_of_hold hr he⟩)
    · exact .inr (.inr ⟨rfl, rfl, decodeActivation_of_sample hr he⟩)
  · exact .inl ⟨rfl, decodeActivation_of_rst hr⟩

@[simp] theorem Instr.operand_sample (level : Bool) (now : Nat) : (Instr.sample level now).operand = now := by
  cases level <;> rfl

/-- The port `now` carries no number that does not fit it (R71). -/
theorem decodeActivation_wellFormed (a : Activation tw) : (decodeActivation a).WellFormed tw := by
  obtain ⟨_, h⟩ | ⟨_, _, h⟩ | ⟨_, _, h⟩ := decodeActivation_cases a <;> rw [Instr.WellFormed, h]
  · exact Nat.two_pow_pos tw
  · exact Nat.two_pow_pos tw
  · rw [Instr.operand_sample]; exact a.now.isLt

/-- Encoding onto the ports loses nothing of a command whose operand fits them (R80). -/
theorem decodeActivation_encode {i : Instr} (h : i.WellFormed tw) : decodeActivation (encode tw i) = i := by
  have fits : i.operand % 2 ^ tw = i.operand := Nat.mod_eq_of_lt h
  have rst : Control.rst 0b100#3 = true := by decide
  have hold : Control.rst 0b000#3 = false ∧ Control.en 0b000#3 = false := by decide
  have lo : Control.rst 0b010#3 = false ∧ Control.en 0b010#3 = true ∧ Control.level 0b010#3 = false := by decide
  have hi : Control.rst 0b011#3 = false ∧ Control.en 0b011#3 = true ∧ Control.level 0b011#3 = true := by decide
  cases i with
  | rst => exact decodeActivation_of_rst rst
  | hold => exact decodeActivation_of_hold hold.1 hold.2
  | lo now => simpa [decodeActivation, encode, Instr.control, lo, Instr.sample, Instr.operand] using fits
  | hi now => simpa [decodeActivation, encode, Instr.control, hi, Instr.sample, Instr.operand] using fits

/-- A SAMPLE row of the opcode table keeps every bit of the control word, so its word is told by the command (R72). -/
theorem sample_control : ∀ w : Control, Control.rst w = false → Control.en w = true →
    ∀ now, (Instr.sample (Control.level w) now).control = w := by
  intro w hr he now
  have all : ∀ w : Control, Control.rst w = false → Control.en w = true →
      w = if Control.level w then 0b011#3 else 0b010#3 := by decide
  rw [all w hr he]
  cases Control.level w <;> rfl

theorem encode_of_decodeActivation_eq_sample {level : Bool} {now : Nat} (h : decodeActivation a = .sample level now) :
    encode tw (.sample level now) = a := by
  obtain ⟨_, e⟩ | ⟨_, _, e⟩ | ⟨hr, he, e⟩ := decodeActivation_cases a <;> rw [e] at h
  · cases level <;> simp [Instr.sample] at h
  · cases level <;> simp [Instr.sample] at h
  · rw [← h, encode, sample_control _ hr he, Instr.operand_sample, BitVec.ofNat_toNat, BitVec.setWidth_eq]

end Ports

/-! ## the opcode table -/

/-- The mask and pattern of each row of spec/opcode_table.json in terms of the three bits (R72). -/
theorem selects_eq (w : Control) (f : Nat → Instr) :
    OpcodeRow.selects ⟨f, 0b100#3, 0b100#3⟩ w = Control.rst w
      ∧ OpcodeRow.selects ⟨f, 0b110#3, 0b000#3⟩ w = (!Control.rst w && !Control.en w)
      ∧ OpcodeRow.selects ⟨f, 0b111#3, 0b010#3⟩ w = (!Control.rst w && Control.en w && !Control.level w)
      ∧ OpcodeRow.selects ⟨f, 0b111#3, 0b011#3⟩ w = (!Control.rst w && Control.en w && Control.level w) := by
  have all : ∀ w : Control, (w &&& 0b100#3 == 0b100#3) = Control.rst w
      ∧ (w &&& 0b110#3 == 0b000#3) = (!Control.rst w && !Control.en w)
      ∧ (w &&& 0b111#3 == 0b010#3) = (!Control.rst w && Control.en w && !Control.level w)
      ∧ (w &&& 0b111#3 == 0b011#3) = (!Control.rst w && Control.en w && Control.level w) := by decide
  exact all w

end Sys2Proof

namespace Sys2Proof.Machine

/-- Settles O3: the word form loses nothing of the ports, and the ports nothing of the command. -/
theorem decodeOfEncodedCommand : Obligations.DecodeOfEncodedCommand := by
  intro tw i h
  rw [encodeWord, decodeWord_toWord, decodeActivation_encode h]

/-- Settles O4: the ports of a word give back the word, and the ports of a SAMPLE command are its encoding. -/
theorem encodeOfDecodedWord : Obligations.EncodeOfDecodedWord := by
  refine fun tw w => ⟨fun i h => ?_, fun level now h => ?_, decodeWord_eq_error_iff⟩
  · obtain ⟨_, rfl⟩ := decodeWord_eq_ok_iff.1 h
    exact decodeActivation_wellFormed _
  · obtain ⟨fits, decodes⟩ := decodeWord_eq_ok_iff.1 h
    rw [encodeWord, encode_of_decodeActivation_eq_sample decodes, Activation.toWord_ofWord fits]

/-- Settles O1: the rows ask for the cases of the decoder, bit by bit. -/
theorem everyControlWordSelectsOneCommand : Obligations.EveryControlWordSelectsOneCommand := by
  intro tw w now
  have rows := selects_eq w
  cases hr : Control.rst w
  · cases he : Control.en w
    · simp [opcodeTable, rows, decodeActivation, hr, he]
    · cases hl : Control.level w <;> simp [opcodeTable, rows, decodeActivation, Instr.sample, hr, he, hl]
  · simp [opcodeTable, rows, decodeActivation, hr]

/-- Settles O2 by evaluating the decoder on each word. -/
theorem specWordsDecode : Obligations.SpecWordsDecode := by
  unfold Obligations.SpecWordsDecode
  decide

/-- Settles O5 by reading and writing each line. -/
theorem notationOfSpecLines : Obligations.NotationOfSpecLines :=
  ⟨rfl, rfl, rfl, rfl, rfl, rfl, rfl, rfl⟩

end Sys2Proof.Machine

/-! PROOFS. The configuration (spec/00_scope.md R7), what a command answers (spec/44_control_step.md R190 to R195,
spec/60_exceptions.md R223, R224), and what a step takes from its ports. -/

namespace Sys2Proof.Machine

/-! ## the configuration -/

section Config
variable {c : Config}

/-- A two's complement word of positive width reads back only numbers of its range. -/
theorem toInt_bounds {n : Nat} (hn : 1 ≤ n) (x : Word n) :
    -((2 ^ (n - 1) : Nat) : Int) ≤ x.toInt ∧ x.toInt < ((2 ^ (n - 1) : Nat) : Int) := by
  obtain ⟨k, rfl⟩ : ∃ k, n = k + 1 := ⟨n - 1, by omega⟩
  exact toInt_range x

/-- The bounds fit their width where both read back from it as themselves. -/
theorem boundsFit_of_readBack (hp : 1 ≤ c.pw) (hmin : c.tachMinW.toInt = c.tachMin)
    (hmax : c.tachMaxW.toInt = c.tachMax) : c.BoundsFit :=
  ⟨hmin ▸ (toInt_bounds hp c.tachMinW).1, hmax ▸ (toInt_bounds hp c.tachMaxW).2⟩

theorem motorSpeedW_toNat (h : c.SpeedOk) : c.motorSpeedW.toNat = c.motorSpeed := by
  simp [Config.motorSpeedW, Nat.mod_eq_of_lt h]

end Config

/-- Settles O6: a value fits a width exactly where it reads back from it as itself. -/
theorem wellFormedMeansConstraintsAndFit : Obligations.WellFormedMeansConstraintsAndFit := by
  refine ⟨fun c => ⟨fun wf => ?_, fun h => ?_⟩, by decide, by decide, by decide⟩
  · obtain ⟨⟨htw, hpw, hdw⟩, hsent, hthr, ⟨hmin, hmax⟩, _, hspeed⟩ := wellFormed_iff.1 wf
    exact ⟨htw, hpw, hdw, hsent.1, hthr.1, hmin, hmax, sentinelW_toNat hsent, hiThreshW_toNat hthr,
      loThreshW_toNat hthr, tachMinW_toInt wf, tachMaxW_toInt wf, motorSpeedW_toNat hspeed⟩
  · obtain ⟨htw, hpw, hdw, hsent, hthr, hmin, hmax, sent, hi, _, tmin, tmax, speed⟩ := h
    exact wellFormed_iff.2 ⟨⟨htw, hpw, hdw⟩, ⟨hsent, sent ▸ c.sentinelW.isLt⟩, ⟨hthr, hi ▸ c.hiThreshW.isLt⟩,
      ⟨hmin, hmax⟩, boundsFit_of_readBack (by omega) tmin tmax,
      (speed ▸ c.motorSpeedW.isLt : c.motorSpeed < 2 ^ c.dw)⟩

/-! ## what a command answers -/

/-- An ill-formed configuration is refused by every command (R224). -/
theorem exec_refused {s : State} (h : ¬ s.cfg.wellFormed = true) (i : Instr) :
    exec i s = .refused .illFormedConfiguration := by
  cases i <;> simp only [exec, execRst, execHold, execLo, execHi, onWellFormed, if_neg h]

/-- A SAMPLE command faults on the reserved code (R223). -/
theorem exec_sample_fault {s : State} (wf : s.cfg.wellFormed = true) (h : ¬ CodeLegal s.regs) (level : Bool)
    (now : Nat) : exec (.sample level now) s = .fault .reservedMotorState := by
  cases level <;> simp only [Instr.sample, exec, execLo, execHi, onWellFormed, stepSample, if_pos wf, if_neg h]

/-- All that a command can answer, and where. -/
theorem exec_cases (i : Instr) (s : State) :
    (¬ s.cfg.wellFormed = true ∧ exec i s = .refused .illFormedConfiguration)
      ∨ (s.cfg.wellFormed = true ∧ ¬ CodeLegal s.regs ∧ (∃ level now, i = .sample level now)
        ∧ exec i s = .fault .reservedMotorState)
      ∨ (s.cfg.wellFormed = true ∧ (CodeLegal s.regs ∨ i = .rst ∨ i = .hold)
        ∧ ∃ w : Work s.cfg, exec i s = .next (s.commit w)) := by
  by_cases wf : s.cfg.wellFormed = true
  case neg => exact .inl ⟨wf, exec_refused wf i⟩
  refine .inr ?_
  obtain rfl | rfl | ⟨level, now, rfl⟩ := instr_cases i
  · exact .inr ⟨wf, .inr (.inl rfl), _, exec_rst wf⟩
  · exact .inr ⟨wf, .inr (.inr rfl), _, exec_hold wf⟩
  · by_cases legal : CodeLegal s.regs
    · exact .inr ⟨wf, .inl legal, _, exec_sample ⟨wf, legal⟩ level now⟩
    · exact .inl ⟨wf, legal, ⟨level, now, rfl⟩, exec_sample_fault wf legal level now⟩

theorem sample_ne_rst_hold (level : Bool) (now : Nat) :
    Instr.sample level now ≠ .rst ∧ Instr.sample level now ≠ .hold := by
  cases level <;> simp [Instr.sample]

/-- Settles O12: the three answers of a command exclude one another, and so do their conditions. -/
theorem commandsStopExactlyWhereSaid : Obligations.CommandsStopExactlyWhereSaid := by
  intro i s
  obtain ⟨ill, e⟩ | ⟨wf, reserved, ⟨level, now, rfl⟩, e⟩ | ⟨wf, runs, w, e⟩ := exec_cases i s
  · simp [e, ill]
  · have code : s.regs.motorState = 0b11#2 := not_not.1 reserved
    have sampled : ∃ level' now', Instr.sample level now = .sample level' now' := ⟨level, now, rfl⟩
    simp [e, wf, code, sampled, sample_ne_rst_hold]
  · have notFault : ¬ (s.regs.motorState = 0b11#2 ∧ ∃ level now, i = .sample level now) := by
      rintro ⟨code, level, now, rfl⟩
      exact runs.elim (absurd code) (·.elim (sample_ne_rst_hold level now).1 (sample_ne_rst_hold level now).2)
    have legal : s.regs.motorState ≠ 0b11#2 ∨ i = .rst ∨ i = .hold := runs
    simp only [e, wf, notFault, legal]
    simp

/-! ## RESET and HOLD -/

/-- Settles O13: `Regs.reset` is the table of reset values. -/
theorem resetWritesEveryRegister : Obligations.ResetWritesEveryRegister :=
  fun _ wf => exec_rst wf

/-- Settles O14: HOLD commits the registers it finds. -/
theorem holdChangesNoRegister : Obligations.HoldChangesNoRegister :=
  fun _ wf => exec_hold wf

/-- Settles O15: RESET commits the registers and the trace that power-up has. -/
theorem resetGivesThePowerUpState : Obligations.ResetGivesThePowerUpState :=
  ⟨fun _ wf => exec_rst wf, rfl⟩

/-! ## the ports of a step -/

@[simp] theorem step_feed (s : State) (a : Activation s.cfg.tw) : step (feed s a) = exec (decodeActivation a) s := rfl

/-- Settles O7: the step runs what it takes from the ports, on the state that taking it leaves. -/
theorem stepRunsTheSelectedCommand : Obligations.StepRunsTheSelectedCommand := by
  refine ⟨fun s a rest h => ?_, fun s h => ?_⟩
  · rw [step, activation, consume, h]
  · rw [step, activation, consume, h]; rfl

/-- Settles O8: the word is the next activation, and its decoding is `i`. -/
theorem fetchWordRunsNext : Obligations.FetchWordRunsNext := by
  intro s nbits w i fits decodes
  rw [State.withFetchWord, step_feed, Nat.mod_eq_of_lt fits, (decodeWord_eq_ok_iff.1 decodes).2]

/-- Settles O10: the decoder gives one command for both inputs. -/
theorem resetAndHoldIgnoreTheirInputs : Obligations.ResetAndHoldIgnoreTheirInputs := by
  rintro s a b (⟨ha, hb⟩ | ⟨ra, ea, rb, eb⟩)
  · rw [step_feed, step_feed, decodeActivation_of_rst ha, decodeActivation_of_rst hb]
  · rw [step_feed, step_feed, decodeActivation_of_hold ra ea, decodeActivation_of_hold rb eb]

/-- Taking an activation leaves a ready state ready. -/
theorem consume_ready {s : State} (h : Ready s) : Ready (consume s) := by
  obtain ⟨_, _, e⟩ := consume_eq s
  rwa [e]

/-- Settles O11: taking an activation does not touch what a command stops on. -/
theorem everyReadyStepCompletes : Obligations.EveryReadyStepCompletes :=
  fun _ h => exec_ready (consume_ready h) _

/-- Settles O16: neither taking an activation nor a command writes the configuration. -/
theorem configurationIsNeverWritten : Obligations.ConfigurationIsNeverWritten := by
  intro s t h
  obtain ⟨w, rfl⟩ := exec_frame h
  exact consume_cfg s

/-! ## programs on the ports -/

/-- A program on the ports is its first command's activation before the rest of the program. -/
theorem withProgram_cons (s : State) (i : Instr) (program : List Instr) :
    s.withProgram (i :: program) = feed (s.withProgram program) (encode s.cfg.tw i) := rfl

/-- No command reads what is fixed on the ports of the coming steps. -/
theorem exec_withProgram (i : Instr) (s : State) (program : List Instr) : exec i (s.withProgram program) =
    match exec i s with
    | .next t => .next (t.withProgram program)
    | .fault f => .fault f
    | .refused r => .refused r := by
  obtain ⟨ill, e⟩ | ⟨wf, reserved, ⟨level, now, rfl⟩, e⟩ | ⟨wf, runs, _⟩ := exec_cases i s
  · rw [e, exec_refused (s := s.withProgram program) ill]
  · rw [e, exec_sample_fault (s := s.withProgram program) wf reserved]
  · obtain rfl | rfl | ⟨level, now, rfl⟩ := instr_cases i
    · rw [exec_rst wf, exec_rst (s := s.withProgram program) wf]
    · rw [exec_hold wf, exec_hold (s := s.withProgram program) wf]
    · have legal : CodeLegal s.regs := runs.resolve_right fun h =>
        h.elim (sample_ne_rst_hold level now).1 (sample_ne_rst_hold level now).2
      rw [exec_sample ⟨wf, legal⟩, exec_sample (s := s.withProgram program) ⟨wf, legal⟩]

section Run
variable {M : Host.Core} {n : Nat} {s : M.State}

theorem run_of_step_next {t : M.State} (h : M.step s = .next t) : M.run (n + 1) s = M.run n t := by
  simp only [Host.Core.run, h]

theorem run_of_step_fault {f : M.Fault} (h : M.step s = .fault f) : M.run (n + 1) s = .fault f := by
  simp only [Host.Core.run, h]

theorem run_of_step_refused {r : M.Refusal} (h : M.step s = .refused r) : M.run (n + 1) s = .refused r := by
  simp only [Host.Core.run, h]

end Run

/-- The machine's step on a program takes the program's first command from the ports. -/
theorem step_withProgram_cons (s : State) {i : Instr} (fits : i.WellFormed s.cfg.tw) (program : List Instr) :
    step (s.withProgram (i :: program)) = exec i (s.withProgram program) := by
  rw [withProgram_cons, step_feed]
  exact congrArg (exec · (s.withProgram program)) (decodeActivation_encode fits)

/-- Settles O9, by induction on the program: each step takes the program's next command from the ports. -/
theorem runOfAProgramIsItsCommands : Obligations.RunOfAProgramIsItsCommands := by
  intro s program fits
  induction program generalizing s with
  | nil => rfl
  | cons i program ih =>
    obtain ⟨fits, restFit⟩ := List.forall_mem_cons.1 fits
    have first := (step_withProgram_cons s fits program).trans (exec_withProgram i s program)
    rw [runCommands]
    cases e : exec i s with
    | next t =>
      obtain ⟨w, rfl⟩ := exec_frame e
      rw [e] at first
      exact (run_of_step_next (M := core) first).trans (ih (s.commit w) restFit)
    | fault f => rw [e] at first; exact run_of_step_fault (M := core) first
    | refused r => rw [e] at first; exact run_of_step_refused (M := core) first

end Sys2Proof.Machine

/-! PROOFS. The PWM Decoder (spec/41_pwm_decoder.md R104, R109 to R111; spec/60_exceptions.md R232, R233): what a
capture makes of the arming of the edges, and what depends on `now`. -/

namespace Sys2Proof.Machine

/-! ## statements of completion -/

section Completes
variable {i : Instr} {s : State} {P Q : Work s.cfg → Prop}

theorem Completes.mono (h : Completes i s P) (hPQ : ∀ w, P w → Q w) : Completes i s Q :=
  let ⟨w, e, hP⟩ := h
  ⟨w, e, hPQ w hP⟩

/-- A command has one result, so two statements of completion speak of the same registers and trace. -/
theorem Completes.and (hP : Completes i s P) (hQ : Completes i s Q) : Completes i s fun w => P w ∧ Q w := by
  obtain ⟨w, e, hP⟩ := hP
  obtain ⟨v, e', hQ⟩ := hQ
  obtain rfl : w = v := commit_injective (Host.Outcome.next.inj (e.symm.trans e'))
  exact ⟨w, e, hP, hQ⟩

end Completes

/-! ## arming -/

/-- Settles O20: a LOW sample of a block that is not fall-armed captures nothing (R104). -/
theorem furtherLowSampleCapturesNothing : Obligations.FurtherLowSampleCapturesNothing := by
  intro s now hs hshadow
  exact completes_sample (level := false) hs
    (sampleWork_sameTimestamps (captureStage_low_disarmed _ (not_not.2 hshadow)))

/-- Settles O25: a capture makes its edge's timestamp the other edge's shadow, and compares `now` with its own. -/
theorem captureArmsTheOtherEdge : Obligations.CaptureArmsTheOtherEdge := by
  refine fun s now hs => ⟨fun armed => ?_, fun armed => ?_, fun disarmed => ?_, fun disarmed => ?_⟩
  · refine completes_sample (level := true) hs ?_
    simp [captureStage_high_armed _ armed, nowOperand]
  · refine completes_sample (level := false) hs ?_
    simp [captureStage_low_armed _ armed, nowOperand]
  · refine completes_sample (level := true) hs ?_
    simpa [captureStage_high_disarmed _ disarmed] using disarmed
  · refine completes_sample (level := false) hs ?_
    simpa [captureStage_low_disarmed _ disarmed] using disarmed

section Reset
variable {c : Config}

theorem reset_codeLegal : CodeLegal (Regs.reset c) := code_ne_reserved .stop

/-- The power-up state is rise-armed because `SENTINEL` is not 0 (R112). -/
theorem reset_riseArmed (wf : c.wellFormed = true) : RiseArmed (Regs.reset c) := by
  obtain ⟨_, hs, _⟩ := wellFormed_iff.1 wf
  intro h
  have : (0 : Word c.tw).toNat = c.sentinelW.toNat := congrArg BitVec.toNat h
  rw [sentinelW_toNat hs] at this
  exact hs.1 (by simpa using this.symm)

theorem reset_not_fallArmed : ¬ FallArmed (Regs.reset c) := not_not.2 rfl

theorem powerUp_ready (wf : c.wellFormed = true) : Ready (State.powerUp c) := ⟨wf, reset_codeLegal⟩

end Reset

/-- Numbers that fit a width are told apart by their words. -/
theorem ofNat_inj_of_lt {n a b : Nat} (ha : a < 2 ^ n) (hb : b < 2 ^ n) :
    BitVec.ofNat n a = BitVec.ofNat n b ↔ a = b := by
  rw [← BitVec.toNat_inj, BitVec.toNat_ofNat, BitVec.toNat_ofNat, Nat.mod_eq_of_lt ha, Nat.mod_eq_of_lt hb]

/-- Settles O27: the rise is captured, and arms the fall unless `now` is the shadow's reset value. -/
theorem firstRiseAtSentinelLocks : Obligations.FirstRiseAtSentinelLocks := by
  intro c now wf fits
  obtain ⟨_, ⟨_, hs⟩, _⟩ := wellFormed_iff.1 wf
  obtain ⟨captures, _⟩ := captureArmsTheOtherEdge (State.powerUp c) now (powerUp_ready wf)
  refine (captures (reset_riseArmed wf)).mono fun w ⟨riseDisarmed, fallArmed⟩ => ?_
  calc Locked w.regs ↔ ¬ FallArmed w.regs := and_iff_right riseDisarmed
    _ ↔ BitVec.ofNat c.tw now = BitVec.ofNat c.tw c.sentinel := fallArmed.not.trans not_not
    _ ↔ now = c.sentinel := ofNat_inj_of_lt fits hs

/-! ## the timer -/

/-- Settles O28: the wrap leaves `fallTime` below `riseTime` in a pulse, and above it between two pulses. -/
theorem timerWrapEffects : Obligations.TimerWrapEffects := by
  refine fun s now hs fits => ⟨fun armed before => ?_, fun armed before => ?_⟩
  · refine ((firstLowSampleCapturesFall s now hs armed).and
      (hiTimeRetainedWithoutValidPair s false now hs)).mono fun w ⟨⟨_, fall, rise, _⟩, retained⟩ => retained ?_
    rw [fall, rise, BitVec.toNat_ofNat, Nat.mod_eq_of_lt fits]
    exact before.le
  · refine ((firstHighSampleCapturesRise s now hs armed).and
      (hiTimeUpdatedFromValidPair s true now hs)).mono fun w ⟨⟨_, rise, fall, _⟩, updated⟩ => ?_
    rw [fall, rise, BitVec.toNat_ofNat, Nat.mod_eq_of_lt fits] at updated
    exact (updated before).1

/-- Over less than a whole period the timer does not show the same number again (R255). -/
theorem now_ne_of_advances {tw : Nat} {T : Nat → Nat} {now : Nat → Word tw} {i j : Nat}
    (lift : TimerLift tw T now) (adv : Advances tw T i j) : now j ≠ now i := by
  intro h
  obtain ⟨later, within⟩ := adv
  have same : T j % 2 ^ tw = T i % 2 ^ tw := by rw [← lift.2 j, ← lift.2 i, h]
  have whole : (T j - T i) % 2 ^ tw = 0 := Nat.sub_mod_eq_zero_of_mod_eq same
  rw [Nat.mod_eq_of_lt (by omega)] at whole
  omega

/-- Settles O31: the second capture's `now` differs from the shadow that holds the first's. -/
theorem advancingTimerDoesNotLock : Obligations.AdvancingTimerDoesNotLock := by
  intro s T now i j hs lift adv
  obtain ⟨rise, fall, _⟩ := captureArmsTheOtherEdge s (now j).toNat hs
  have ofNow : BitVec.ofNat s.cfg.tw (now j).toNat = now j := by simp
  refine ⟨fun armed shadow => (rise armed).mono fun w ⟨_, arms⟩ => arms.2 ?_,
    fun armed shadow => (fall armed).mono fun w ⟨_, arms⟩ => arms.2 ?_⟩
  · rw [ofNow, shadow]; exact now_ne_of_advances lift adv
  · rw [ofNow, shadow]; exact now_ne_of_advances lift adv

/-- Only the capture part of a step reads `now` (R232). -/
theorem exec_sample_congr {s : State} {level : Bool} {m n : Nat}
    (h : captureStage level (nowOperand s.cfg m) s.regs = captureStage level (nowOperand s.cfg n) s.regs) :
    exec (.sample level m) s = exec (.sample level n) s := by
  cases level <;> simp only [Instr.sample, exec, execLo, execHi, stepSample, sampleWork, decodeStage, h]

/-- Settles O32: on a disarmed edge the capture part keeps the registers whatever `now` is. -/
theorem nowMattersOnlyToACapture : Obligations.NowMattersOnlyToACapture := by
  refine fun s m n => ⟨fun h => exec_sample_congr (level := true) ?_, fun h => exec_sample_congr (level := false) ?_⟩
  · rw [captureStage_high_disarmed _ h, captureStage_high_disarmed _ h]
  · rw [captureStage_low_disarmed _ h, captureStage_low_disarmed _ h]

end Sys2Proof.Machine

/-! PROOFS. The SAMPLE step as a whole (spec/30_encoding.md R82; spec/41_pwm_decoder.md R107, R108;
spec/43_position_tracker.md R160 to R169): its four ends, and what follows for the flag, the position and the trace. -/

namespace Sys2Proof.Machine

/-! ## the four ends of a step -/

section Ends
variable {c : Config}

/-- How a SAMPLE step from the registers `r` ends, with `d` the registers as decode left them (R161 to R165). -/
inductive SampleEnd (r d : Regs c) (w : Work c) : Prop where
  /-- HALT alone (R165) -/
  | halted (trace : w.trace = [.halt]) (duty : w.regs.motorDuty = 0) (position : w.regs.position = r.position)
      (state : InState .stop w.regs) (dir : w.regs.motorDir = r.motorDir)
      (request : w.regs.motionRequest = d.motionRequest)
  /-- DRIVE, COUNT_UP (R161, R162) -/
  | countedUp (trace : w.trace = [.drive w.regs.motorDir]) (duty : w.regs.motorDuty = c.motorSpeedW)
      (below : BelowMax r)
      (position : w.regs.position = r.position + 1) (state : InState .retract w.regs)
      (request : w.regs.motionRequest = d.motionRequest)
      (source : (d.motionRequest = true ∧ w.regs.motorDir = false)
        ∨ (InState .retract r ∧ w.regs.motorDir = r.motorDir))
  /-- DRIVE, COUNT_DOWN (R161, R163) -/
  | countedDown (trace : w.trace = [.drive w.regs.motorDir]) (duty : w.regs.motorDuty = c.motorSpeedW)
      (above : AboveMin r)
      (position : w.regs.position = r.position - 1) (state : InState .extend w.regs)
      (request : w.regs.motionRequest = d.motionRequest)
      (source : (d.motionRequest = true ∧ w.regs.motorDir = true)
        ∨ (InState .extend r ∧ w.regs.motorDir = r.motorDir))
  /-- DRIVE, BOUNDARY_HALT (R161, R164), which only a state that interpret kept can meet (R138) -/
  | haltedAtBoundary (trace : w.trace = [.drive w.regs.motorDir, .halt]) (duty : w.regs.motorDuty = 0)
      (position : w.regs.position = r.position) (state : InState .stop w.regs) (dir : w.regs.motorDir = r.motorDir)
      (request : w.regs.motionRequest = false)
      (limit : (InState .retract r ∧ ¬ BelowMax r) ∨ (InState .extend r ∧ ¬ AboveMin r))

/-! Decode touches neither the motor state nor the position. -/

theorem inState_decodeStage {level : Bool} {now : Word c.tw} {r : Regs c} {m : MotorState} :
    InState m (decodeStage level now r) ↔ InState m r := by
  rw [InState, decodeStage_motorState]
theorem aboveMin_decodeStage {level : Bool} {now : Word c.tw} {r : Regs c} :
    AboveMin (decodeStage level now r) ↔ AboveMin r := by
  rw [AboveMin, decodeStage_position]
theorem belowMax_decodeStage {level : Bool} {now : Word c.tw} {r : Regs c} :
    BelowMax (decodeStage level now r) ↔ BelowMax r := by
  rw [BelowMax, decodeStage_position]

/-- Every SAMPLE step on a legal code has one of the four ends. -/
theorem sampleEnd (level : Bool) (now : Word c.tw) {r : Regs c} (legal : CodeLegal r) :
    SampleEnd r (decodeStage level now r) (sampleWork level now r) := by
  obtain ⟨requested, _, _, above, e⟩ | ⟨requested, _, _, _, below, e⟩ | ⟨_, _, _, _, e⟩ | ⟨_, _, e⟩ :=
    sampleWork_cases level now r <;> rw [e]
  · exact .countedDown rfl rfl (aboveMin_decodeStage.1 above) (by simp) rfl rfl (.inl ⟨requested, rfl⟩)
  · exact .countedUp rfl rfl (belowMax_decodeStage.1 below) (by simp) rfl rfl (.inl ⟨requested, rfl⟩)
  · exact .halted rfl rfl (by simp) rfl (by simp) rfl
  · obtain ⟨stopped, a⟩ | ⟨retracting, below, a⟩ | ⟨extending, above, a⟩ | ⟨moving, noUp, noDown, a⟩ :=
      applyStage_cases (decodeStage level now r) <;> rw [a]
    · exact .halted rfl rfl (by simp) stopped (by simp) rfl
    · exact .countedUp rfl rfl (belowMax_decodeStage.1 below) (by simp) retracting rfl
        (.inr ⟨inState_decodeStage.1 retracting, by simp⟩)
    · exact .countedDown rfl rfl (aboveMin_decodeStage.1 above) (by simp) extending rfl
        (.inr ⟨inState_decodeStage.1 extending, by simp⟩)
    · refine .haltedAtBoundary rfl rfl (by simp) rfl (by simp) rfl ?_
      rw [inState_decodeStage, belowMax_decodeStage] at noUp
      rw [inState_decodeStage, aboveMin_decodeStage] at noDown
      obtain h | h | h := codeLegal_cases legal
      · exact absurd (inState_decodeStage.2 h) moving
      · exact .inr ⟨h, fun above => noDown ⟨h, above⟩⟩
      · exact .inl ⟨h, fun below => noUp ⟨h, below⟩⟩

@[simp] theorem haltedAtBoundary_boundary (dir : Bool) : HaltedAtBoundary [.drive dir, .halt] := ⟨dir, rfl⟩
@[simp] theorem not_haltedAtBoundary_halt : ¬ HaltedAtBoundary [.halt] := fun ⟨_, h⟩ => by simp at h
@[simp] theorem not_haltedAtBoundary_drive (dir : Bool) : ¬ HaltedAtBoundary [.drive dir] := fun ⟨_, h⟩ => by simp at h

end Ends

/-! ## the flag and the hi-time -/

section Flag
variable {c : Config} {level : Bool} {now : Word c.tw} {r : Regs c}

/-- A hi-time that is not 0 stays so: a new one is the difference of two distinct timestamps (R108). -/
theorem decodeStage_hiTime_ne_zero (h : r.hiTime ≠ 0) : (decodeStage level now r).hiTime ≠ 0 := by
  rw [decodeStage_hiTime]
  split
  next pair =>
    intro zero
    have difference := validPair_sub_toNat pair
    simp only [zero, BitVec.ofNat_eq_ofNat, BitVec.toNat_ofNat, Nat.zero_mod] at difference
    omega
  next => exact h

theorem decodeStage_motionRequest_of_hiTime (h : (decodeStage level now r).hiTime ≠ 0) :
    (decodeStage level now r).motionRequest = true := by
  rw [decodeStage_motionRequest, decide_eq_true h, Bool.or_true]

/-- After a step the flag is as decode left it, or cleared by the boundary halt (R107, R164). -/
theorem sampleWork_motionRequest (level : Bool) (now : Word c.tw) (legal : CodeLegal r) :
    let w := sampleWork level now r
    (HaltedAtBoundary w.trace ∧ w.regs.motionRequest = false)
      ∨ (¬ HaltedAtBoundary w.trace ∧ w.regs.motionRequest = (decodeStage level now r).motionRequest) := by
  obtain ⟨trace, _, _, _, _, request⟩ | ⟨trace, _, _, _, _, request, _⟩ | ⟨trace, _, _, _, _, request, _⟩ |
    ⟨trace, _, _, _, _, request, _⟩ := sampleEnd level now legal
  · exact .inr ⟨by simp [trace], request⟩
  · exact .inr ⟨by simp only [trace, not_haltedAtBoundary_drive, not_false_eq_true], request⟩
  · exact .inr ⟨by simp only [trace, not_haltedAtBoundary_drive, not_false_eq_true], request⟩
  · exact .inl ⟨⟨_, trace⟩, request⟩

end Flag

/-- Settles O23: only the boundary halt writes the flag after decode. -/
theorem motionRequestFollowsHiTime : Obligations.MotionRequestFollowsHiTime := by
  intro s level now hs
  refine completes_sample hs ?_
  rw [sampleWork_hiTime, ← decodeStage_motionRequest]
  obtain ⟨halted, clear⟩ | ⟨notHalted, kept⟩ := sampleWork_motionRequest level (nowOperand s.cfg now) hs.2
  · exact ⟨fun _ => clear, fun h => absurd halted h⟩
  · exact ⟨fun h => absurd h notHalted, fun _ => kept⟩

/-- Settles O24: the hi-time stays non-zero, so decode sets the flag, and only a boundary halt clears it. -/
theorem hiTimeStaysNonZero : Obligations.HiTimeStaysNonZero := by
  refine fun s hs nonzero => ⟨fun level now => completes_sample hs ?_, _, exec_hold hs.1, nonzero⟩
  have later := decodeStage_hiTime_ne_zero (level := level) (now := nowOperand s.cfg now) nonzero
  refine ⟨by rwa [sampleWork_hiTime], ?_⟩
  obtain ⟨halted, _⟩ | ⟨_, kept⟩ := sampleWork_motionRequest level (nowOperand s.cfg now) hs.2
  · exact .inr halted
  · exact .inl (kept.trans (decodeStage_motionRequest_of_hiTime later))

/-! ## the position -/

/-- Settles O46: a count changes the position by 1, and no other end touches it. -/
theorem positionMovesExactlyWhenDriven : Obligations.PositionMovesExactlyWhenDriven := by
  intro s level now hs
  refine completes_sample hs ?_
  obtain ⟨trace, _, position, _⟩ | ⟨trace, _, below, position, _⟩ | ⟨trace, _, above, position, _⟩ |
    ⟨trace, _, position, _⟩ := sampleEnd level (nowOperand s.cfg now) hs.2
  · simp [trace, position]
  · have up := increment_toInt hs.1 ((belowMax_iff hs.1 _).1 below)
    refine ⟨iff_of_true ⟨_, trace⟩ fun same => ?_, by rw [position, up]; omega⟩
    rw [← position, same] at up
    omega
  · have down := decrement_toInt hs.1 ((aboveMin_iff hs.1 _).1 above)
    refine ⟨iff_of_true ⟨_, trace⟩ fun same => ?_, by rw [position, down]; omega⟩
    rw [← position, same] at down
    omega
  · simp [trace, position]

/-- The bounds of R167, which hold of the position at every step's end where they hold at its start. -/
def InBounds {c : Config} (r : Regs c) : Prop := c.tachMin ≤ r.position.toInt ∧ r.position.toInt ≤ c.tachMax

theorem sampleWork_inBounds {c : Config} (wf : c.wellFormed = true) (level : Bool) (now : Word c.tw) {r : Regs c}
    (legal : CodeLegal r) (h : InBounds r) : InBounds (sampleWork level now r).regs := by
  obtain ⟨_, _, position, _⟩ | ⟨_, _, below, position, _⟩ | ⟨_, _, above, position, _⟩ | ⟨_, _, position, _⟩ :=
    sampleEnd level now legal <;> rw [InBounds, position]
  · exact h
  · have := (belowMax_iff wf r).1 below
    rw [increment_toInt wf this]
    exact ⟨by have := h.1; omega, by omega⟩
  · have := (aboveMin_iff wf r).1 above
    rw [decrement_toInt wf this]
    exact ⟨by omega, by have := h.2; omega⟩
  · exact h

theorem reset_inBounds {c : Config} (wf : c.wellFormed = true) : InBounds (Regs.reset c) := by
  obtain ⟨_, _, _, hb, _⟩ := wellFormed_iff.1 wf
  simpa [InBounds] using hb

/-- A step is a command on the state itself, but for the host's side of the ports. -/
theorem step_next_exec {s t : State} (h : step s = .next t) :
    ∃ (i : Instr) (w : Work s.cfg) (pending : List (Activation s.cfg.tw)) (draws : Nat),
    exec i s = .next (s.commit w) ∧ t = { s.commit w with pending := pending, draws := draws } := by
  obtain ⟨pending, draws, e⟩ := consume_eq s
  rw [step, e] at h
  obtain ⟨wf, ⟨_, rfl⟩ | ⟨_, rfl⟩ | ⟨level, now, _, legal, rfl⟩⟩ := exec_next_cases h
  · exact ⟨.rst, _, _, _, exec_rst wf, rfl⟩
  · exact ⟨.hold, _, _, _, exec_hold wf, rfl⟩
  · exact ⟨.sample level now, _, _, _, exec_sample (s := s) ⟨wf, legal⟩ level now, rfl⟩

/-- Settles O45: RESET takes the position to 0, HOLD keeps it, and a SAMPLE counts only inside the bounds. -/
theorem positionStaysInBounds : Obligations.PositionStaysInBounds := by
  intro s t wf bounds h
  obtain ⟨i, w, _, _, e, rfl⟩ := step_next_exec h
  obtain ⟨_, ⟨_, hw⟩ | ⟨_, hw⟩ | ⟨level, now, _, legal, hw⟩⟩ := exec_next_cases e <;> rw [commit_injective hw]
  · exact reset_inBounds wf
  · exact bounds
  · exact sampleWork_inBounds wf level _ legal bounds

/-! ## frame, trace, sub-operations -/

section Frame
variable {c : Config} (now : Word c.tw) (r : Regs c)

@[simp] theorem captureStage_high_fallTime : (captureStage true now r).fallTime = r.fallTime := by
  obtain ⟨_, _, h⟩ | ⟨h, _⟩ | ⟨_, _, h⟩ := captureStage_cases true now r <;> simp_all
@[simp] theorem captureStage_high_lastSeenRise : (captureStage true now r).lastSeenRise = r.lastSeenRise := by
  obtain ⟨_, _, h⟩ | ⟨h, _⟩ | ⟨_, _, h⟩ := captureStage_cases true now r <;> simp_all
@[simp] theorem captureStage_low_riseTime : (captureStage false now r).riseTime = r.riseTime := by
  obtain ⟨h, _⟩ | ⟨_, _, h⟩ | ⟨_, _, h⟩ := captureStage_cases false now r <;> simp_all
@[simp] theorem captureStage_low_lastSeenFall : (captureStage false now r).lastSeenFall = r.lastSeenFall := by
  obtain ⟨h, _⟩ | ⟨_, _, h⟩ | ⟨_, _, h⟩ := captureStage_cases false now r <;> simp_all

end Frame

/-- Settles O49: a capture writes its own edge's timestamp and the other edge's shadow; each end has its own trace
and duty. -/
theorem sampleFrameAndTrace : Obligations.SampleFrameAndTrace := by
  intro s level now hs
  refine completes_sample hs ⟨?_, ?_, fun changed => ?_, ?_⟩
  · rintro rfl; simp
  · rintro rfl; simp
  · by_contra noPair
    exact changed (by rw [sampleWork_hiTime_eq_ite, if_neg noPair])
  · obtain ⟨trace, duty, _⟩ | ⟨trace, duty, _⟩ | ⟨trace, duty, _⟩ | ⟨trace, duty, _⟩ :=
      sampleEnd level (nowOperand s.cfg now) hs.2
    · exact .inl ⟨trace, duty⟩
    · exact .inr (.inl ⟨trace, duty⟩)
    · exact .inr (.inl ⟨trace, duty⟩)
    · exact .inr (.inr ⟨trace, duty⟩)

section SubOperations
variable {c : Config} (level : Bool) (now : Word c.tw) (r : Regs c)

theorem apply_mem_subOperations (op : ApplyOp) : .apply op ∈ subOperations level now r ↔
    op = selectApply (interpretStage (decodeStage level now r)) := by
  simp only [subOperations, decodeStage]
  split_ifs <;> simp

theorem drive_mem_subOperations : .drive ∈ subOperations level now r ↔
    ¬ InState .stop (interpretStage (decodeStage level now r)) := by
  simp only [subOperations, decodeStage]
  split_ifs <;> simp_all

theorem interpret_mem_subOperations (op : InterpretOp) : .interpret op ∈ subOperations level now r ↔
    op = selectInterpret (decodeStage level now r) := by
  simp only [subOperations, decodeStage]
  split_ifs <;> simp

theorem motionRequestSet_mem_subOperations : .motionRequestSet ∈ subOperations level now r ↔
    (decodeStage level now r).hiTime ≠ 0 := by
  simp only [subOperations, decodeStage, motionRequestSet_eq]
  split_ifs <;> simp_all

/-- Interpret is skipped exactly where the gate is closed (R130). -/
theorem selectInterpret_eq_skipped_iff : selectInterpret r = .skipped ↔ r.motionRequest = false := by
  unfold selectInterpret
  split_ifs <;> simp_all

/-- Apply is HALT alone exactly in STOP (R165). -/
theorem selectApply_eq_halt_iff : selectApply r = .halt ↔ InState .stop r := by
  unfold selectApply
  split_ifs with stopped
  · exact iff_of_true rfl stopped
  all_goals exact iff_of_false (by decide) stopped

/-- Each apply sub-operation has its trace (R161 to R165). -/
theorem applyStage_trace_eq : (applyStage r).trace =
    match selectApply r with
    | .countUp => [.drive r.motorDir]
    | .countDown => [.drive r.motorDir]
    | .boundaryHalt => [.drive r.motorDir, .halt]
    | .halt => [.halt] := by
  unfold applyStage
  cases selectApply r <;> rfl

/-- DRIVE is run where the trace begins with Drive, in the direction apply found (R161). -/
theorem applyStage_trace_begins_drive_iff :
    (∃ rest, (applyStage r).trace = .drive r.motorDir :: rest) ↔ ¬ InState .stop r := by
  rw [applyStage_trace_eq, ← selectApply_eq_halt_iff]
  cases selectApply r <;> simp

/-- BOUNDARY_HALT is run where the trace is `[Drive, Halt]` (R164). -/
theorem haltedAtBoundary_applyStage_iff : HaltedAtBoundary (applyStage r).trace ↔ .boundaryHalt = selectApply r := by
  rw [applyStage_trace_eq]
  cases selectApply r <;> simp

end SubOperations

/-- Settles O50: each clause compares one stage's selection with what that stage leaves. -/
theorem subOperationsAccountForTheStep : Obligations.SubOperationsAccountForTheStep := by
  intro s level now hs
  have work : sampleWork level (nowOperand s.cfg now) s.regs =
      applyStage (interpretStage (decodeStage level (nowOperand s.cfg now) s.regs)) := rfl
  refine completes_sample hs ⟨?_, ?_, ?_, ?_, ?_⟩
  · rw [apply_mem_subOperations, eq_comm, selectApply_eq_halt_iff, work, applyStage_trace_eq_halt_iff]
  · rw [drive_mem_subOperations, work, applyStage_motorDir, applyStage_trace_begins_drive_iff]
  · rw [apply_mem_subOperations, work, haltedAtBoundary_applyStage_iff]
  · rw [motionRequestSet_mem_subOperations, sampleWork_hiTime]
  · rw [interpret_mem_subOperations, eq_comm, selectInterpret_eq_skipped_iff, requested_sampleWork_iff,
      Bool.not_eq_true]

end Sys2Proof.Machine

/-! PROOFS. The Motion State Machine (spec/42_motion_state_machine.md R130 to R139): which transition a SAMPLE step
takes, read off the registers the step found and the hi-time it ends with. -/

namespace Sys2Proof.Machine

/-! ## apply on a state it finds -/

section Held
variable {c : Config} {r d : Regs c}

theorem not_inState {m n : MotorState} (h : InState m r) (hne : m ≠ n) : ¬ InState n r :=
  fun h' => hne (inState_unique h h')

/-- COUNT_UP (R162). -/
theorem applyStage_countUp (retracting : InState .retract r) (below : BelowMax r) : applyStage r =
    ⟨{ r with motorDuty := c.motorSpeedW, position := r.position + 1 }, [.drive r.motorDir]⟩ := by
  rw [applyStage, selectApply, if_neg (not_inState retracting (by decide)), if_pos ⟨retracting, below⟩]
  rfl

/-- COUNT_DOWN (R163). -/
theorem applyStage_countDown (extending : InState .extend r) (above : AboveMin r) : applyStage r =
    ⟨{ r with motorDuty := c.motorSpeedW, position := r.position - 1 }, [.drive r.motorDir]⟩ := by
  rw [applyStage, selectApply, if_neg (not_inState extending (by decide)),
    if_neg fun h => not_inState extending (by decide) h.1, if_pos ⟨extending, above⟩]
  rfl

/-- BOUNDARY_HALT (R164). -/
theorem applyStage_boundaryHalt (limit : InState .retract r ∧ ¬ BelowMax r ∨ InState .extend r ∧ ¬ AboveMin r) :
    applyStage r = ⟨{ r with motorDuty := 0, motorState := MotorState.stop.code, motionRequest := false },
      [.drive r.motorDir, .halt]⟩ := by
  obtain ⟨stopped, _⟩ | ⟨retracting, below, _⟩ | ⟨extending, above, _⟩ | ⟨_, _, _, a⟩ := applyStage_cases r
  · exact limit.elim (fun h => absurd h.1 (not_inState stopped (by decide))) fun h =>
      absurd h.1 (not_inState stopped (by decide))
  · exact limit.elim (fun h => absurd below h.2) fun h => absurd h.1 (not_inState retracting (by decide))
  · exact limit.elim (fun h => absurd h.1 (not_inState extending (by decide))) fun h => absurd above h.2
  · exact a

/-- Apply acts on no register but the motor state, the position and the direction. -/
theorem applyStage_appliesHeldState (state : d.motorState = r.motorState) (position : d.position = r.position)
    (dir : d.motorDir = r.motorDir) : AppliesHeldState r (applyStage d) where
  halt stopped := by
    rw [applyStage_halt (state.trans stopped)]
    exact ⟨rfl, rfl, position, state.trans stopped⟩
  countUp retracting below := by
    rw [applyStage_countUp (state.trans retracting) (by rwa [BelowMax, position]), dir, position]
    exact ⟨rfl, rfl, rfl, state.trans retracting⟩
  countDown extending above := by
    rw [applyStage_countDown (state.trans extending) (by rwa [AboveMin, position]), dir, position]
    exact ⟨rfl, rfl, rfl, state.trans extending⟩
  boundaryHalt limit := by
    rw [applyStage_boundaryHalt (by rwa [InState, InState, BelowMax, AboveMin, state, position]), dir]
    exact ⟨rfl, rfl, position, rfl, rfl⟩
  dirKept := by rw [applyStage_motorDir, dir]

end Held

/-! ## the transitions of a step -/

section Transitions
variable {c : Config}

/-- The condition of TO_EXTEND (R131) on a step from `r` that ends with the registers `e`. -/
abbrev ExtendCondition (r e : Regs c) : Prop := ¬ InState .extend r ∧ AboveBand e ∧ AboveMin r

/-- The condition of TO_RETRACT (R132) on a step from `r` that ends with the registers `e`. -/
abbrev RetractCondition (r e : Regs c) : Prop := ¬ InState .retract r ∧ BelowBand e ∧ BelowMax r

/-- What interpret makes of a SAMPLE step from `r`, with `d` the registers as decode left them (R130 to R135). -/
inductive Transition (r d : Regs c) (w : Work c) : Prop where
  /-- TO_EXTEND, then COUNT_DOWN (R131, R163) -/
  | toExtend (requested : Requested r w.regs) (condition : ExtendCondition r w.regs) (state : InState .extend w.regs)
      (dir : w.regs.motorDir = true) (position : w.regs.position = r.position - 1)
      (duty : w.regs.motorDuty = c.motorSpeedW) (request : w.regs.motionRequest = true)
      (trace : w.trace = [.drive true])
  /-- TO_RETRACT, then COUNT_UP (R132, R162) -/
  | toRetract (requested : Requested r w.regs) (notExtend : ¬ ExtendCondition r w.regs)
      (condition : RetractCondition r w.regs) (state : InState .retract w.regs)
      (dir : w.regs.motorDir = false) (position : w.regs.position = r.position + 1)
      (duty : w.regs.motorDuty = c.motorSpeedW) (request : w.regs.motionRequest = true)
      (trace : w.trace = [.drive false])
  /-- TO_STOP, then HALT (R133, R165) -/
  | toStop (requested : Requested r w.regs) (notExtend : ¬ ExtendCondition r w.regs)
      (notRetract : ¬ RetractCondition r w.regs) (band : InDeadBand w.regs) (state : InState .stop w.regs)
      (dir : w.regs.motorDir = r.motorDir) (trace : w.trace = [.halt])
  /-- PERSIST, or interpret skipped (R130, R134) -/
  | held (gate : ¬ Requested r w.regs ∨
        ¬ ExtendCondition r w.regs ∧ ¬ RetractCondition r w.regs ∧ ¬ InDeadBand w.regs)
      (op : Requested r w.regs → selectInterpret d = .persist) (applies : AppliesHeldState r w)

variable (level : Bool) (now : Word c.tw) (r : Regs c)

/-- Interpret's conditions, on the registers as decode left them, are those of the step's two ends. -/
theorem conditions_decodeStage_iff :
    ((¬ InState .extend (decodeStage level now r) ∧ AboveBand (decodeStage level now r)
        ∧ AboveMin (decodeStage level now r)) ↔ ExtendCondition r (sampleWork level now r).regs)
      ∧ ((¬ InState .retract (decodeStage level now r) ∧ BelowBand (decodeStage level now r)
        ∧ BelowMax (decodeStage level now r)) ↔ RetractCondition r (sampleWork level now r).regs) := by
  simp only [ExtendCondition, RetractCondition, AboveBand, BelowBand, inState_decodeStage, aboveMin_decodeStage,
    belowMax_decodeStage, sampleWork_hiTime, and_self]

/-- PERSIST is selected on a request where no condition holds (R134). -/
theorem selectInterpret_eq_persist {r : Regs c} (requested : r.motionRequest = true)
    (notExtend : ¬ (¬ InState .extend r ∧ AboveBand r ∧ AboveMin r))
    (notRetract : ¬ (¬ InState .retract r ∧ BelowBand r ∧ BelowMax r)) (outside : ¬ InDeadBand r) :
    selectInterpret r = .persist := by
  rw [selectInterpret, if_neg (by simp [requested]), if_neg notExtend, if_neg notRetract, if_neg outside]

/-- Every SAMPLE step takes one of the transitions. -/
theorem sampleTransition : Transition r (decodeStage level now r) (sampleWork level now r) := by
  obtain ⟨extendIff, retractIff⟩ := conditions_decodeStage_iff level now r
  have held : AppliesHeldState r (applyStage (decodeStage level now r)) :=
    applyStage_appliesHeldState (decodeStage_motorState ..) (decodeStage_position ..) (decodeStage_motorDir ..)
  obtain ⟨req, notExt, above, min, e⟩ | ⟨req, no, notRet, below, max, e⟩ | ⟨req, noExt, noRet, band, e⟩ |
    ⟨gate, _, e⟩ := sampleWork_cases level now r
  · have requested := requested_sampleWork_iff.2 req
    have condition := extendIff.1 ⟨notExt, above, min⟩
    refine .toExtend requested condition ?_ ?_ ?_ ?_ ?_ ?_ <;> simp [e, req]
  · have requested := requested_sampleWork_iff.2 req
    have condition := retractIff.1 ⟨notRet, below, max⟩
    refine .toRetract requested (extendIff.not.1 no) condition ?_ ?_ ?_ ?_ ?_ ?_ <;> simp [e, req]
  · have requested := requested_sampleWork_iff.2 req
    refine .toStop requested (extendIff.not.1 noExt) (retractIff.not.1 noRet) (inDeadBand_sampleWork_iff.2 band)
      ?_ ?_ ?_ <;> simp [e]
  · refine .held ?_ (fun requested => ?_) (e ▸ held)
    · rw [requested_sampleWork_iff, inDeadBand_sampleWork_iff, ← extendIff, ← retractIff, Bool.not_eq_true]
      exact gate
    · have req := requested_sampleWork_iff.1 requested
      obtain ⟨noExt, noRet, outside⟩ := gate.resolve_left (by simp [req])
      exact selectInterpret_eq_persist req noExt noRet outside

end Transitions

/-- Settles O33: the step is TO_EXTEND. -/
theorem highHiTimeExtends : Obligations.HighHiTimeExtends := by
  intro s level now hs
  refine completes_sample hs fun requested notExtending above min => ?_
  have condition : ExtendCondition s.regs (sampleWork level (nowOperand s.cfg now) s.regs).regs :=
    ⟨notExtending, above, min⟩
  obtain ⟨_, _, state, dir, position, duty, request, trace⟩ | ⟨_, no, _⟩ | ⟨_, no, _⟩ | ⟨gate, _⟩ :=
    sampleTransition level (nowOperand s.cfg now) s.regs
  · exact ⟨state, dir, position, duty, request, trace⟩
  · exact absurd condition no
  · exact absurd condition no
  · exact gate.elim (absurd requested) fun no => absurd condition no.1

/-- Settles O34: below the band TO_EXTEND has no chance (R135), and the step is TO_RETRACT. -/
theorem lowHiTimeRetracts : Obligations.LowHiTimeRetracts := by
  intro s level now hs
  refine completes_sample hs fun requested notRetracting below max => ?_
  have condition : RetractCondition s.regs (sampleWork level (nowOperand s.cfg now) s.regs).regs :=
    ⟨notRetracting, below, max⟩
  obtain ⟨_, ⟨_, above, _⟩, _⟩ | ⟨_, _, _, state, dir, position, duty, request, trace⟩ | ⟨_, _, no, _⟩ | ⟨gate, _⟩ :=
    sampleTransition level (nowOperand s.cfg now) s.regs
  · exact absurd ⟨above, below⟩ (bands_exclusive hs.1 _).1
  · exact ⟨state, dir, position, duty, request, trace⟩
  · exact absurd condition no
  · exact gate.elim (absurd requested) fun no => absurd condition no.2.1

/-- Where no condition holds, apply acts on the state the step found (R130, R134). -/
theorem sampleWork_persists {c : Config} {level : Bool} {now : Word c.tw} {r : Regs c}
    (noExtend : ¬ ExtendCondition r (sampleWork level now r).regs)
    (noRetract : ¬ RetractCondition r (sampleWork level now r).regs)
    (outside : ¬ InDeadBand (sampleWork level now r).regs) : AppliesHeldState r (sampleWork level now r) := by
  obtain ⟨_, condition, _⟩ | ⟨_, _, condition, _⟩ | ⟨_, _, _, band, _⟩ | ⟨_, _, applies⟩ := sampleTransition level now r
  · exact absurd condition noExtend
  · exact absurd condition noRetract
  · exact absurd band outside
  · exact applies

/-- Settles O36: the step is PERSIST. -/
theorem lastStatePersists : Obligations.LastStatePersists :=
  fun _ _ _ hs => completes_sample hs fun _ noExtend noRetract outside => sampleWork_persists noExtend noRetract outside

/-- Settles O37: every transition but the skipped one needs the request. -/
theorem interpretSkippedWithoutRequest : Obligations.InterpretSkippedWithoutRequest := by
  intro s level now hs
  refine completes_sample hs fun unrequested => ?_
  obtain ⟨requested, _⟩ | ⟨requested, _⟩ | ⟨requested, _⟩ | ⟨_, _, applies⟩ :=
    sampleTransition level (nowOperand s.cfg now) s.regs
  · exact absurd requested unrequested
  · exact absurd requested unrequested
  · exact absurd requested unrequested
  · exact applies

/-! ## a second interpret -/

section SecondInterpret
variable {c : Config} {r : Regs c}

theorem interpretStage_toExtend (wf : c.wellFormed = true) (above : AboveBand r) :
    interpretStage (toExtend r) = toExtend r := by
  obtain ⟨notBelow, notBand, _⟩ := bands_exclusive wf r
  obtain ⟨_, e⟩ | ⟨_, notExtending, _⟩ | ⟨_, _, _, below, _⟩ | ⟨_, _, _, band, _⟩ | ⟨_, _, _, _, e⟩ :=
    interpretStage_cases (toExtend r)
  · exact e
  · exact absurd rfl notExtending
  · exact absurd ⟨above, below⟩ notBelow
  · exact absurd ⟨above, band⟩ notBand
  · exact e

theorem interpretStage_toRetract (wf : c.wellFormed = true) (below : BelowBand r) :
    interpretStage (toRetract r) = toRetract r := by
  obtain ⟨notAbove, _, notBand⟩ := bands_exclusive wf r
  obtain ⟨_, e⟩ | ⟨_, _, above, _⟩ | ⟨_, _, notRetracting, _⟩ | ⟨_, _, _, band, _⟩ | ⟨_, _, _, _, e⟩ :=
    interpretStage_cases (toRetract r)
  · exact e
  · exact absurd ⟨above, below⟩ notAbove
  · exact absurd rfl notRetracting
  · exact absurd ⟨below, band⟩ notBand
  · exact e

theorem interpretStage_toStop (wf : c.wellFormed = true) (band : InDeadBand r) :
    interpretStage (toStop r) = toStop r := by
  obtain ⟨_, notAbove, notBelow⟩ := bands_exclusive wf r
  obtain ⟨_, e⟩ | ⟨_, _, above, _⟩ | ⟨_, _, _, below, _⟩ | ⟨_, _, _, _, e⟩ | ⟨_, _, _, _, e⟩ :=
    interpretStage_cases (toStop r)
  · exact e
  · exact absurd ⟨above, band⟩ notAbove
  · exact absurd ⟨below, band⟩ notBelow
  · exact e
  · exact e

end SecondInterpret

/-- Settles O38: interpret does not touch the hi-time, and its band selects the same transition or none (R136). -/
theorem secondInterpretChangesNothing : Obligations.SecondInterpretChangesNothing := by
  intro c r wf
  obtain ⟨_, e⟩ | ⟨_, _, above, _, e⟩ | ⟨_, _, _, below, _, e⟩ | ⟨_, _, _, band, e⟩ | ⟨_, _, _, _, e⟩ :=
    interpretStage_cases r <;> rw [e]
  · exact e
  · exact interpretStage_toExtend wf above
  · exact interpretStage_toRetract wf below
  · exact interpretStage_toStop wf band
  · exact e

/-! ## what a transition can change -/

/-- Settles O39: TO_EXTEND does not apply in EXTEND, and a held EXTEND ends elsewhere only by the boundary halt. -/
theorem waysOutOfExtend : Obligations.WaysOutOfExtend := by
  intro s level now hs extending
  refine completes_sample hs fun left => ?_
  obtain ⟨_, ⟨notExtending, _⟩, _⟩ | ⟨_, _, ⟨_, below, max⟩, state, _⟩ | ⟨_, _, _, band, state, _⟩ | ⟨_, _, applies⟩ :=
    sampleTransition level (nowOperand s.cfg now) s.regs
  · exact absurd extending notExtending
  · exact .inl ⟨state, below, max⟩
  · exact .inr (.inl ⟨state, band⟩)
  · have atMin : ¬ AboveMin s.regs := fun above => left (applies.countDown extending above).2.2.2
    obtain ⟨trace, _, _, state, _⟩ := applies.boundaryHalt (.inr ⟨extending, atMin⟩)
    exact .inr (.inr ⟨state, ⟨_, trace⟩, atMin⟩)

/-- Settles O40: only TO_EXTEND and TO_RETRACT write the direction bit. -/
theorem directionBitChangesOnlyOnEntry : Obligations.DirectionBitChangesOnlyOnEntry := by
  intro s level now hs
  refine completes_sample hs fun changed => ?_
  obtain ⟨_, ⟨notExtending, _⟩, state, dir, _⟩ | ⟨_, _, ⟨notRetracting, _⟩, state, dir, _⟩ |
    ⟨_, _, _, _, _, kept, _⟩ | ⟨_, _, applies⟩ := sampleTransition level (nowOperand s.cfg now) s.regs
  · exact .inl ⟨notExtending, state, dir⟩
  · exact .inr ⟨notRetracting, state, dir⟩
  · exact absurd kept changed
  · exact absurd applies.dirKept changed

end Sys2Proof.Machine

/-! PROOFS. The invariant (spec/10_state.md sections 3 and 4; spec/60_exceptions.md R223; spec/70_reset_and_hazards.md
R250, R259): it holds at power-up, every step keeps it, and what follows at the position limits. -/

namespace Sys2Proof.Machine

/-! ## a SAMPLE step keeps the registers' invariant -/

section SampleInvariant
variable {c : Config} (level : Bool) (now : Word c.tw) {r : Regs c}

/-- A capture disarms its edge, and no other step arms one (R109). -/
theorem captureStage_oneArmed (h : ¬ (RiseArmed r ∧ FallArmed r)) :
    ¬ (RiseArmed (captureStage level now r) ∧ FallArmed (captureStage level now r)) := by
  obtain ⟨_, _, e⟩ | ⟨_, _, e⟩ | ⟨_, _, e⟩ := captureStage_cases level now r <;> rw [e]
  · exact fun ⟨rise, _⟩ => rise rfl
  · exact fun ⟨_, fall⟩ => fall rfl
  · exact h

/-- Decode sets the flag only on a hi-time that is not 0, and a hi-time under a set flag stays so (R107, R108). -/
theorem decodeStage_requestComputed (h : r.motionRequest = true → r.hiTime ≠ 0)
    (requested : (decodeStage level now r).motionRequest = true) : (decodeStage level now r).hiTime ≠ 0 := by
  rw [decodeStage_motionRequest, Bool.or_eq_true, decide_eq_true_iff] at requested
  exact requested.elim (fun flag => decodeStage_hiTime_ne_zero (h flag)) id

/-- Decode clears no flag (R107). -/
theorem decodeStage_keeps_request (h : r.motionRequest = true) : (decodeStage level now r).motionRequest = true := by
  rw [decodeStage_motionRequest, h, Bool.true_or]

/-- STOP moves in neither direction and needs no request. -/
theorem stopped_movingRequested {e : Regs c} (stopped : InState .stop e) :
    (¬ InState .stop e → e.motionRequest = true)
      ∧ (InState .extend e → e.motorDir = true) ∧ (InState .retract e → e.motorDir = false) :=
  ⟨absurd stopped, fun h => absurd h (not_inState stopped (by decide)),
    fun h => absurd h (not_inState stopped (by decide))⟩

/-- A state that moves after the step was entered on request, or moved before it (R130, R131, R132). -/
theorem sampleWork_movingRequested (h : RegsInv r) : let e := (sampleWork level now r).regs
    (¬ InState .stop e → e.motionRequest = true)
      ∧ (InState .extend e → e.motorDir = true) ∧ (InState .retract e → e.motorDir = false) := by
  have held {m : MotorState} (hm : InState m r) (hne : m ≠ .stop) : (decodeStage level now r).motionRequest = true :=
    decodeStage_keeps_request level now (h.movingRequested (not_inState hm hne))
  obtain ⟨_, _, _, state, _⟩ | ⟨_, _, _, _, state, request, source⟩ | ⟨_, _, _, _, state, request, source⟩ |
    ⟨_, _, _, state, _⟩ := sampleEnd level now h.codeLegal
  · exact stopped_movingRequested state
  · refine ⟨fun _ => ?_, fun h => absurd h (not_inState state (by decide)), fun _ => ?_⟩
    · exact request.trans (source.elim And.left fun ⟨retracting, _⟩ => held retracting (by decide))
    · exact source.elim And.right fun ⟨retracting, kept⟩ => kept.trans (h.dirOfState.2 retracting)
  · refine ⟨fun _ => ?_, fun _ => ?_, fun h => absurd h (not_inState state (by decide))⟩
    · exact request.trans (source.elim And.left fun ⟨extending, _⟩ => held extending (by decide))
    · exact source.elim And.right fun ⟨extending, kept⟩ => kept.trans (h.dirOfState.1 extending)
  · exact stopped_movingRequested state

/-- The duty follows the motor state at each of the four ends, whose codes are legal (R78, R161, R166). -/
theorem sampleWork_codeLegal_and_duty (legal : CodeLegal r) : let e := (sampleWork level now r).regs
    CodeLegal e ∧ e.motorDuty = if InState .stop e then 0 else c.motorSpeedW := by
  obtain ⟨_, duty, _, state, _⟩ | ⟨_, duty, _, _, state, _⟩ | ⟨_, duty, _, _, state, _⟩ | ⟨_, duty, _, state, _⟩ :=
    sampleEnd level now legal
  · exact ⟨inState_legal state, by rw [duty, if_pos state]⟩
  · exact ⟨inState_legal state, by rw [duty, if_neg (not_inState state (by decide))]⟩
  · exact ⟨inState_legal state, by rw [duty, if_neg (not_inState state (by decide))]⟩
  · exact ⟨inState_legal state, by rw [duty, if_pos state]⟩

theorem sampleWork_traceLegal (legal : CodeLegal r) : TraceLegal (sampleWork level now r).trace := by
  obtain ⟨trace, _⟩ | ⟨trace, _⟩ | ⟨trace, _⟩ | ⟨trace, _⟩ := sampleEnd level now legal
  · exact .inr (.inl trace)
  · exact .inr (.inr ⟨_, .inl trace⟩)
  · exact .inr (.inr ⟨_, .inl trace⟩)
  · exact .inr (.inr ⟨_, .inr trace⟩)

theorem sampleWork_regsInv (wf : c.wellFormed = true) (h : RegsInv r) : RegsInv (sampleWork level now r).regs where
  codeLegal := (sampleWork_codeLegal_and_duty level now h.codeLegal).1
  inBounds := sampleWork_inBounds wf level now h.codeLegal h.inBounds
  oneArmed := by
    simpa only [RiseArmed, FallArmed, sampleWork_riseTime, sampleWork_fallTime, sampleWork_lastSeenRise,
      sampleWork_lastSeenFall] using captureStage_oneArmed level now h.oneArmed
  hiTimeOfPair pair := by rw [sampleWork_hiTime_eq_ite, if_pos pair]
  requestComputed requested := by
    rw [sampleWork_hiTime]
    refine decodeStage_requestComputed level now h.requestComputed ?_
    obtain ⟨_, clear⟩ | ⟨_, kept⟩ := sampleWork_motionRequest level now h.codeLegal
    · exact absurd (requested.symm.trans clear) (by decide)
    · exact kept.symm.trans requested
  movingRequested := (sampleWork_movingRequested level now h).1
  dutyOfState := (sampleWork_codeLegal_and_duty level now h.codeLegal).2
  dirOfState := (sampleWork_movingRequested level now h).2

end SampleInvariant

/-! ## every step keeps the invariant -/

theorem reset_regsInv {c : Config} (wf : c.wellFormed = true) : RegsInv (Regs.reset c) where
  codeLegal := reset_codeLegal
  inBounds := reset_inBounds wf
  oneArmed := fun ⟨_, fall⟩ => reset_not_fallArmed fall
  hiTimeOfPair pair := by simp [ValidPair] at pair
  requestComputed requested := by simp at requested
  movingRequested moving := absurd rfl moving
  dutyOfState := (if_pos rfl).symm
  dirOfState := ⟨fun h => absurd h (code_ne (m := .stop) (n := .extend) (by decide)), fun _ => rfl⟩

/-- Settles O55: the reset values meet each clause, with nothing in the trace. -/
theorem powerUpMeetsTheInvariant : Obligations.PowerUpMeetsTheInvariant := by
  have powerUp (c : Config) (wf : c.wellFormed = true) : (State.powerUp c).Inv := ⟨wf, reset_regsInv wf, .inl rfl⟩
  exact ⟨powerUp, powerUp Config.vectors (by decide)⟩

theorem State.Inv.ready {s : State} (h : s.Inv) : Ready s := ⟨h.config, h.regs.codeLegal⟩

/-- The invariant speaks of the block alone, not of the host's side of the ports. -/
theorem State.Inv.withHost {s : State} (h : s.Inv) (pending : List (Activation s.cfg.tw)) (draws : Nat) :
    State.Inv { s with pending := pending, draws := draws } :=
  ⟨h.config, h.regs, h.trace⟩

theorem sampleWork_inv {s : State} (h : s.Inv) (level : Bool) (now : Word s.cfg.tw) :
    (s.commit (sampleWork level now s.regs)).Inv :=
  ⟨h.config, sampleWork_regsInv level now h.config h.regs, sampleWork_traceLegal level now h.regs.codeLegal⟩

/-- Every command keeps the invariant. -/
theorem exec_inv {i : Instr} {s t : State} (h : s.Inv) (e : exec i s = .next t) : t.Inv := by
  obtain ⟨wf, ⟨_, rfl⟩ | ⟨_, rfl⟩ | ⟨level, now, _, _, rfl⟩⟩ := exec_next_cases e
  · exact ⟨wf, reset_regsInv wf, .inl rfl⟩
  · exact ⟨wf, h.regs, .inl rfl⟩
  · exact sampleWork_inv h level _

/-- Settles O56: a step is a command, but for the host's side of the ports. -/
theorem everyStepKeepsTheInvariant : Obligations.EveryStepKeepsTheInvariant := by
  intro s t h stepped
  obtain ⟨i, w, pending, draws, ran, rfl⟩ := step_next_exec stepped
  exact (exec_inv h ran).withHost pending draws

/-- From every state that meets the invariant a run of any length goes on to one that does. -/
theorem run_inv (n : Nat) {s : State} (h : s.Inv) : ∃ t : State, Host.Core.run core n s = .next t ∧ t.Inv := by
  induction n generalizing s with
  | zero => exact ⟨s, rfl, h⟩
  | succ n ih =>
    obtain ⟨t, e⟩ := everyReadyStepCompletes s h.ready
    obtain ⟨u, run, hu⟩ := ih (everyStepKeepsTheInvariant s t h e)
    exact ⟨u, (run_of_step_next (M := core) e).trans run, hu⟩

/-- Settles O57: power-up meets the invariant, whatever stands on the ports. -/
theorem runsFromPowerUpNeverStop : Obligations.RunsFromPowerUpNeverStop :=
  fun c _ n wf => run_inv n ((powerUpMeetsTheInvariant.1 c wf).withHost _ _)

/-! ## at the limits -/

/-- From a moving state of the invariant the next step runs interpret (R130). -/
theorem requested_of_moving {s : State} (h : s.Inv) {m : MotorState} (moving : InState m s.regs) (hne : m ≠ .stop)
    (e : Regs s.cfg) : Requested s.regs e :=
  .inl (h.regs.movingRequested (not_inState moving hne))

/-- Settles O44: of the four ends only the boundary halt has this trace, of the transitions only PERSIST, and within the
bounds the failed limit test is the limit itself. -/
theorem boundaryHaltOnlyAtTheLimit : Obligations.BoundaryHaltOnlyAtTheLimit := by
  intro s level now h
  refine completes_sample h.ready fun halted => ?_
  obtain ⟨lower, upper⟩ := h.regs.inBounds
  obtain ⟨trace, _⟩ | ⟨trace, _⟩ | ⟨trace, _⟩ | ⟨_, duty, position, state, dir, request, limit⟩ :=
    sampleEnd level (nowOperand s.cfg now) h.regs.codeLegal
  case haltedAtBoundary =>
    have requested : Requested s.regs (sampleWork level (nowOperand s.cfg now) s.regs).regs :=
      limit.elim (fun ⟨retracting, _⟩ => requested_of_moving h retracting (by decide) _)
        fun ⟨extending, _⟩ => requested_of_moving h extending (by decide) _
    refine ⟨?_, (interpret_mem_subOperations ..).2 ?_, position, dir, duty, state, request⟩
    · rw [belowMax_iff h.config, aboveMin_iff h.config] at limit
      exact limit.imp (fun ⟨state, atMax⟩ => ⟨state, by omega⟩) fun ⟨state, atMin⟩ => ⟨state, by omega⟩
    · obtain ⟨_, _, _, _, _, _, _, trace⟩ | ⟨_, _, _, _, _, _, _, _, trace⟩ | ⟨_, _, _, _, _, _, trace⟩ | ⟨_, op, _⟩ :=
        sampleTransition level (nowOperand s.cfg now) s.regs
      · exact absurd (trace ▸ halted) (not_haltedAtBoundary_drive _)
      · exact absurd (trace ▸ halted) (not_haltedAtBoundary_drive _)
      · exact absurd (trace ▸ halted) not_haltedAtBoundary_halt
      · exact (op requested).symm
  · exact absurd (trace ▸ halted) not_haltedAtBoundary_halt
  · exact absurd (trace ▸ halted) (not_haltedAtBoundary_drive _)
  · exact absurd (trace ▸ halted) (not_haltedAtBoundary_drive _)

/-- Settles O47: the first step leaves STOP, from which no boundary halt comes, and keeps the hi-time, which sets the
flag again. -/
theorem motionRequestClearIsTransient : Obligations.MotionRequestClearIsTransient := by
  intro s level level' now now' h
  have first := (completes_sample_iff h.ready).1 (boundaryHaltOnlyAtTheLimit s level now h)
  refine completes_sample h.ready fun halted => ?_
  obtain ⟨limit, _, _, _, _, stopped, _⟩ := first halted
  have next : (s.commit (sampleWork level (nowOperand s.cfg now) s.regs)).Inv := sampleWork_inv h level _
  have request : s.regs.motionRequest = true :=
    limit.elim (fun ⟨retracting, _⟩ => h.regs.movingRequested (not_inState retracting (by decide)))
      fun ⟨extending, _⟩ => h.regs.movingRequested (not_inState extending (by decide))
  have nonzero : (sampleWork level (nowOperand s.cfg now) s.regs).regs.hiTime ≠ 0 := by
    rw [sampleWork_hiTime]
    exact decodeStage_hiTime_ne_zero (h.regs.requestComputed request)
  refine (((hiTimeStaysNonZero _ next.ready nonzero).1 level' now').and
    (boundaryHaltOnlyAtTheLimit _ level' now' next)).mono fun v ⟨⟨_, requestOrHalt⟩, onlyAtLimit⟩ => ?_
  have notAgain : ¬ HaltedAtBoundary v.trace := fun again =>
    (onlyAtLimit again).1.elim (fun ⟨retracting, _⟩ => not_inState stopped (by decide) retracting)
      fun ⟨extending, _⟩ => not_inState stopped (by decide) extending
  exact ⟨requestOrHalt.resolve_right notAgain, notAgain⟩

/-- Settles O41: at the limit the other transition's position condition fails, so the state is held, and apply counts
back or finds the other limit at the same position. -/
theorem oppositeRequestAtALimit : Obligations.OppositeRequestAtALimit := by
  refine fun s level now h => ⟨fun extending atMax => completes_sample h.ready fun below => ?_,
    fun retracting atMin => completes_sample h.ready fun above => ?_⟩
  · have held := sampleWork_persists (fun ⟨notExtending, _⟩ => notExtending extending)
      (fun ⟨_, _, max⟩ => by have := (belowMax_iff h.config _).1 max; omega)
      fun band => (bands_exclusive h.config _).2.2 ⟨below, band⟩
    refine ⟨fun apart => ?_, fun same => ?_⟩
    · obtain ⟨trace, _, position, state⟩ := held.countDown extending ((aboveMin_iff h.config _).2 (by omega))
      exact ⟨state, position, by rw [trace, h.regs.dirOfState.1 extending]⟩
    · obtain ⟨trace, _, position, state, _⟩ :=
        held.boundaryHalt (.inr ⟨extending, by rw [aboveMin_iff h.config]; omega⟩)
      exact ⟨state, position, _, trace⟩
  · have held := sampleWork_persists
      (fun ⟨_, _, min⟩ => by have := (aboveMin_iff h.config _).1 min; omega)
      (fun ⟨notRetracting, _⟩ => notRetracting retracting)
      fun band => (bands_exclusive h.config _).2.1 ⟨above, band⟩
    refine ⟨fun apart => ?_, fun same => ?_⟩
    · obtain ⟨trace, _, position, state⟩ := held.countUp retracting ((belowMax_iff h.config _).2 (by omega))
      exact ⟨state, position, by rw [trace, h.regs.dirOfState.2 retracting]⟩
    · obtain ⟨trace, _, position, state, _⟩ :=
        held.boundaryHalt (.inl ⟨retracting, by rw [belowMax_iff h.config]; omega⟩)
      exact ⟨state, position, _, trace⟩

end Sys2Proof.Machine

/-! PROOFS. Runs of more than one command (spec/41_pwm_decoder.md R110, R112, R113; spec/43_position_tracker.md R163,
R164; spec/95_test_vectors.md T-D): each is an induction on the program over a fact about one command. -/

namespace Sys2Proof.Machine

/-! ## runs -/

section Runs
variable {s t : State} {i : Instr} {p q : List Instr}

theorem runCommands_cons_of_next (e : exec i s = .next t) : runCommands (i :: p) s = runCommands p t := by
  rw [runCommands, e]

theorem runCommands_append_of_next (e : runCommands p s = .next t) : runCommands (p ++ q) s = runCommands q t := by
  rw [runCommands_append, e]

theorem runCommands_singleton_of_next (e : exec i s = .next t) : runCommands [i] s = .next t :=
  runCommands_cons_of_next e

end Runs

theorem SameTimestamps.refl {c : Config} (r : Regs c) : SameTimestamps r r := ⟨rfl, rfl, rfl, rfl⟩

theorem SameTimestamps.trans {c : Config} {a b d : Regs c} (h : SameTimestamps a b) (h' : SameTimestamps b d) :
    SameTimestamps a d := by
  obtain ⟨rise, fall, seenRise, seenFall⟩ := h
  obtain ⟨rise', fall', seenRise', seenFall'⟩ := h'
  exact ⟨rise'.trans rise, fall'.trans fall, seenRise'.trans seenRise, seenFall'.trans seenFall⟩

/-- Arming is a matter of the timestamps alone (R109). -/
theorem SameTimestamps.armed_iff {c : Config} {r e : Regs c} (h : SameTimestamps r e) :
    (RiseArmed e ↔ RiseArmed r) ∧ (FallArmed e ↔ FallArmed r) := by
  obtain ⟨rise, fall, seenRise, seenFall⟩ := h
  rw [RiseArmed, FallArmed, rise, fall, seenRise, seenFall]
  exact ⟨.rfl, .rfl⟩

/-- A SAMPLE step that captures nothing keeps the hi-time too, where the hi-time is that of the pair held (R105). -/
theorem sampleWork_hiTime_of_no_capture {c : Config} {level : Bool} {now : Word c.tw} {r : Regs c} (h : RegsInv r)
    (kept : captureStage level now r = r) : (sampleWork level now r).regs.hiTime = r.hiTime := by
  rw [sampleWork_hiTime_eq_ite]
  simp only [ValidPair, sampleWork_riseTime, sampleWork_fallTime, kept]
  split
  next pair => exact (h.hiTimeOfPair pair).symm
  next => rfl

/-! ## lock-up -/

theorem captureStage_locked {c : Config} {r : Regs c} (h : Locked r) (level : Bool) (now : Word c.tw) :
    captureStage level now r = r := by
  cases level
  · exact captureStage_low_disarmed now h.2
  · exact captureStage_high_disarmed now h.1

/-- What the lock-up keeps of the registers (R110). -/
def KeepsDecoder {c : Config} (r e : Regs c) : Prop := SameTimestamps r e ∧ e.hiTime = r.hiTime ∧ Locked e

/-- No command but RESET ends the lock-up. -/
theorem exec_locked {s : State} (h : s.Inv) (locked : Locked s.regs) {i : Instr} (hi : i ≠ .rst) :
    Completes i s fun w => KeepsDecoder s.regs w.regs := by
  obtain rfl | rfl | ⟨level, now, rfl⟩ := instr_cases i
  · exact absurd rfl hi
  · exact ⟨_, exec_hold h.config, .refl _, rfl, locked⟩
  · have kept := captureStage_locked locked level (nowOperand s.cfg now)
    have same : SameTimestamps s.regs (sampleWork level (nowOperand s.cfg now) s.regs).regs :=
      sampleWork_sameTimestamps kept
    exact completes_sample h.ready ⟨same, sampleWork_hiTime_of_no_capture h.regs kept,
      same.armed_iff.1.not.2 locked.1, same.armed_iff.2.not.2 locked.2⟩

/-- Settles O26, by induction on the program. -/
theorem lockUpLastsUntilReset : Obligations.LockUpLastsUntilReset := by
  intro s program h locked noReset
  induction program generalizing s with
  | nil => exact ⟨⟨s.regs, s.trace⟩, rfl, .refl _, rfl, locked⟩
  | cons i program ih =>
    obtain ⟨notRst, noReset⟩ := not_or.1 (List.mem_cons.not.1 noReset)
    obtain ⟨w, e, same, hiTime, locked'⟩ := exec_locked h locked (Ne.symm notRst)
    obtain ⟨v, run, same', hiTime', locked''⟩ := ih (s.commit w) (exec_inv h e) locked' noReset
    exact ⟨v, (runCommands_cons_of_next e).trans run, same.trans same', hiTime'.trans hiTime, locked''⟩

/-! ## before the first rise -/

section BeforeFirstRise
variable {c : Config}

/-- With the reset values, decode and interpret have nothing to do on a LOW sample, and apply halts (R112). -/
theorem sampleWork_low_reset (now : Word c.tw) : sampleWork false now (Regs.reset c) = ⟨Regs.reset c, [.halt]⟩ := by
  have decoded : decodeStage false now (Regs.reset c) = Regs.reset c := by
    have noPair : ¬ ValidPair (Regs.reset c) := by simp [ValidPair]
    simp only [decodeStage_eq, captureStage_low_disarmed now reset_not_fallArmed, if_neg noPair]
    rfl
  have interpreted : interpretStage (Regs.reset c) = Regs.reset c := by
    rw [interpretStage, (selectInterpret_eq_skipped_iff _).2 rfl]
    rfl
  rw [sampleWork, decoded, interpreted, applyStage_halt rfl]
  rfl

/-- LO and HOLD find the reset values and leave them. -/
theorem exec_reset_regs {s : State} (wf : s.cfg.wellFormed = true) (hr : s.regs = Regs.reset s.cfg) {i : Instr}
    (hi : i = .hold ∨ ∃ now, i = .lo now) : Completes i s fun w => w.regs = Regs.reset s.cfg := by
  obtain rfl | ⟨now, rfl⟩ := hi
  · exact ⟨_, exec_hold wf, hr⟩
  · refine completes_sample (level := false) ⟨wf, hr ▸ reset_codeLegal⟩ ?_
    rw [hr, sampleWork_low_reset]

end BeforeFirstRise

/-- Settles O29, by induction on the program from any state with the reset values. -/
theorem nothingHappensBeforeTheFirstRise : Obligations.NothingHappensBeforeTheFirstRise := by
  intro c program wf quiet
  have run (trace : List MotorCmd) : ∃ trace', runCommands program ((State.powerUp c).commit ⟨Regs.reset c, trace⟩)
      = .next ((State.powerUp c).commit ⟨Regs.reset c, trace'⟩) := by
    induction program generalizing trace with
    | nil => exact ⟨trace, rfl⟩
    | cons i program ih =>
      obtain ⟨first, quiet⟩ := List.forall_mem_cons.1 quiet
      obtain ⟨⟨regs, trace'⟩, e, hregs⟩ := exec_reset_regs
        (s := (State.powerUp c).commit ⟨Regs.reset c, trace⟩) wf rfl first
      obtain rfl : regs = Regs.reset c := hregs
      obtain ⟨last, rest⟩ := ih quiet trace'
      exact ⟨last, (runCommands_cons_of_next e).trans rest⟩
  obtain ⟨trace, e⟩ := run []
  exact ⟨trace, e, reset_riseArmed wf, reset_not_fallArmed⟩

/-! ## a pulse -/

/-- A SAMPLE step leaves the state ready for the next. -/
theorem sampleWork_ready {s : State} (h : Ready s) (level : Bool) (now : Word s.cfg.tw) :
    Ready (s.commit (sampleWork level now s.regs)) :=
  ⟨h.1, (sampleWork_codeLegal_and_duty level now h.2).1⟩

/-- Further HIGH samples of one pulse capture nothing (R102). -/
theorem runCommands_hi_disarmed (ticks : List Nat) {s : State} (h : Ready s) (disarmed : ¬ RiseArmed s.regs) :
    ∃ w : Work s.cfg, runCommands (ticks.map .hi) s = .next (s.commit w) ∧ Ready (s.commit w)
      ∧ SameTimestamps s.regs w.regs := by
  induction ticks generalizing s with
  | nil => exact ⟨⟨s.regs, s.trace⟩, rfl, h, .refl _⟩
  | cons now ticks ih =>
    have same : SameTimestamps s.regs (sampleWork true (nowOperand s.cfg now) s.regs).regs :=
      sampleWork_sameTimestamps (captureStage_high_disarmed _ disarmed)
    obtain ⟨w, run, ready, same'⟩ := ih (sampleWork_ready h true _) (same.armed_iff.1.not.2 disarmed)
    exact ⟨w, (runCommands_cons_of_next (exec_sample h true now)).trans run, ready, same.trans same'⟩

/-- The HIGH samples of a pulse: the first captures the rise and arms the fall, the others keep both (R101, R109). -/
theorem runCommands_hi_armed (first : Nat) (ticks : List Nat) {s : State} (h : Ready s) (armed : RiseArmed s.regs)
    (fresh : nowOperand s.cfg first ≠ s.regs.lastSeenRise) :
    ∃ w : Work s.cfg, runCommands ((first :: ticks).map .hi) s = .next (s.commit w) ∧ Ready (s.commit w)
      ∧ w.regs.riseTime = nowOperand s.cfg first ∧ FallArmed w.regs := by
  have captured := captureStage_high_armed (nowOperand s.cfg first) armed
  obtain ⟨w, run, ready, same⟩ := runCommands_hi_disarmed ticks
    (sampleWork_ready h true (nowOperand s.cfg first)) (by simp [captured])
  refine ⟨w, (runCommands_cons_of_next (exec_sample h true first)).trans run, ready, ?_, same.armed_iff.2.2 ?_⟩
  · simpa [captured] using same.1
  · simpa [captured] using fresh

/-- Where the timer does not wrap, the difference of two `now` values is that of their ticks (R233). -/
theorem now_sub_eq {tw : Nat} {T : Nat → Nat} {now : Nat → Word tw} {i j : Nat} (lift : TimerLift tw T now)
    (noWrap : NoWrap tw T i j) (later : T i < T j) :
    (now i).toNat < (now j).toNat ∧ (now j).toNat - (now i).toNat = T j - T i := by
  have hi := Nat.div_add_mod (T i) (2 ^ tw)
  have hj := Nat.div_add_mod (T j) (2 ^ tw)
  rw [← lift.2 i, noWrap] at hi
  rw [← lift.2 j] at hj
  omega

/-- Settles O30: the LOW sample captures the fall, on a valid pair with the rise that the HIGH samples left. -/
theorem pulseHiTimeIsExact : Obligations.PulseHiTimeIsExact := by
  intro s n T now hs armed lift noWrap later fresh
  obtain ⟨before, difference⟩ := now_sub_eq lift noWrap later
  have toWord (k : Nat) : BitVec.ofNat s.cfg.tw (now k).toNat = now k := by simp
  have highs : (List.range (n + 1)).map (fun k => Instr.hi (now k).toNat) =
      ((now 0).toNat :: (List.range n).map fun k => (now (k + 1)).toNat).map .hi := by
    simp [List.range_succ_eq_map, Function.comp_def]
  obtain ⟨v, run, ready, rise, fallArmed⟩ := runCommands_hi_armed (now 0).toNat
    ((List.range n).map fun k => (now (k + 1)).toNat) hs armed (by rwa [nowOperand, toWord])
  obtain ⟨w, e, ⟨_, fallNow, riseKept, _⟩, updated⟩ :=
    (firstLowSampleCapturesFall _ (now (n + 1)).toNat ready fallArmed).and
      (hiTimeUpdatedFromValidPair _ false (now (n + 1)).toNat ready)
  rw [riseKept, fallNow, commit_regs, rise, nowOperand, toWord, toWord] at updated
  refine ⟨w, ?_, (updated before).1.trans difference⟩
  rw [highs, runCommands_append_of_next run, runCommands_singleton_of_next e]

/-! ## EXTEND held above the band -/

section ExtendHeld

/-- EXTEND with the hi-time above the band and no rise to capture. -/
structure ExtendHeld (s : State) : Prop where
  inv : s.Inv
  extending : InState .extend s.regs
  above : AboveBand s.regs
  disarmed : ¬ RiseArmed s.regs

variable {s : State} (now : Nat)

/-- A HIGH sample keeps the timestamps and the hi-time. -/
theorem ExtendHeld.keeps (h : ExtendHeld s) : let w := sampleWork true (nowOperand s.cfg now) s.regs
    AboveBand w.regs ∧ ¬ RiseArmed w.regs := by
  have kept := captureStage_high_disarmed (nowOperand s.cfg now) h.disarmed
  have same : SameTimestamps s.regs (sampleWork true (nowOperand s.cfg now) s.regs).regs :=
    sampleWork_sameTimestamps kept
  exact ⟨by rw [AboveBand, sampleWork_hiTime_of_no_capture h.inv.regs kept]; exact h.above,
    same.armed_iff.1.not.2 h.disarmed⟩

/-- Above the band EXTEND persists (R134). -/
theorem ExtendHeld.applies (h : ExtendHeld s) :
    AppliesHeldState s.regs (sampleWork true (nowOperand s.cfg now) s.regs) := by
  obtain ⟨notBelow, notBand, _⟩ := bands_exclusive h.inv.config (sampleWork true (nowOperand s.cfg now) s.regs).regs
  obtain ⟨above, _⟩ := h.keeps now
  exact sampleWork_persists (fun ⟨notExtending, _⟩ => notExtending h.extending)
    (fun ⟨_, below, _⟩ => notBelow ⟨above, below⟩) fun band => notBand ⟨above, band⟩

/-- Above `TACH_MIN` a HIGH sample counts down and leaves EXTEND held (R163). -/
theorem ExtendHeld.step (h : ExtendHeld s) (above : s.cfg.tachMin < s.regs.position.toInt) :
    let w := sampleWork true (nowOperand s.cfg now) s.regs
    ExtendHeld (s.commit w) ∧ w.regs.position.toInt = s.regs.position.toInt - 1 := by
  obtain ⟨band, disarmed⟩ := h.keeps now
  obtain ⟨_, _, position, extending⟩ := (h.applies now).countDown h.extending ((aboveMin_iff h.inv.config _).2 above)
  exact ⟨⟨sampleWork_inv h.inv true _, extending, band, disarmed⟩, by rw [position, decrement_toInt h.inv.config above]⟩

/-- EXTEND held takes as many HIGH samples to `TACH_MIN` as it is away. -/
theorem ExtendHeld.run (distance : Nat) {s : State} (h : ExtendHeld s)
    (away : s.regs.position.toInt = s.cfg.tachMin + distance) :
    ∃ w : Work s.cfg, runCommands (List.replicate distance (.hi now)) s = .next (s.commit w) ∧ ExtendHeld (s.commit w)
      ∧ w.regs.position.toInt = s.cfg.tachMin := by
  induction distance generalizing s with
  | zero => exact ⟨⟨s.regs, s.trace⟩, rfl, h, by simpa using away⟩
  | succ distance ih =>
    obtain ⟨held, position⟩ := h.step now (by omega)
    have nearer : s.regs.position.toInt - 1 = s.cfg.tachMin + distance := by omega
    obtain ⟨w, run, held', atMin⟩ := ih held (position.trans nearer)
    exact ⟨w, (runCommands_cons_of_next (exec_sample h.inv.ready true now)).trans run, held', atMin⟩

/-- At `TACH_MIN` the next HIGH sample is the boundary halt (R164). -/
theorem ExtendHeld.halt (h : ExtendHeld s) (atMin : s.regs.position.toInt = s.cfg.tachMin) :
    Completes (.hi now) s fun w => w.trace = [.drive true, .halt] ∧ InState .stop w.regs
      ∧ w.regs.position.toInt = s.cfg.tachMin ∧ w.regs.motionRequest = false ∧ w.regs.motorDuty = 0 := by
  have limit : ¬ AboveMin s.regs := by rw [aboveMin_iff h.inv.config]; omega
  obtain ⟨trace, duty, position, state, request⟩ := (h.applies now).boundaryHalt (.inr ⟨h.extending, limit⟩)
  rw [h.inv.regs.dirOfState.1 h.extending] at trace
  exact completes_sample (level := true) h.inv.ready ⟨trace, state, by rw [position, atMin], request, duty⟩

end ExtendHeld

/-- Settles O48: the run to the limit, and one more step. -/
theorem extendRunsToTheLimitAndHalts : Obligations.ExtendRunsToTheLimitAndHalts := by
  intro s now distance h extending above disarmed away
  obtain ⟨w, run, held, atMin⟩ := ExtendHeld.run now distance ⟨h, extending, above, disarmed⟩ away
  obtain ⟨v, last, result⟩ := held.halt now atMin
  refine ⟨⟨w, run, held.extending, atMin⟩, v, ?_, result⟩
  rw [List.replicate_succ', runCommands_append_of_next run, runCommands_singleton_of_next last]

end Sys2Proof.Machine

/-! PROOFS. The output ports (spec/30_encoding.md R70, R76, R83; spec/44_control_step.md R198). -/

namespace Sys2Proof.Machine

/-! ## the status output -/

/-- The lowest field of a layout. -/
theorem extractLsb'_append_of_start_eq_zero {v w start : Nat} (hi : BitVec v) (lo : BitVec w) (h : start = 0) :
    (hi ++ lo).extractLsb' start w = lo := by
  subst h; exact BitVec.extractLsb'_append_eq_right

/-- A layout of one field. -/
theorem extractLsb'_of_start_eq_zero {w start : Nat} (x : BitVec w) (h : start = 0) : x.extractLsb' start w = x := by
  subst h; exact BitVec.extractLsb'_eq_self

/-- Settles O51: each field is the lowest one once those below it are dropped. -/
theorem statusPresentsEveryRegister : Obligations.StatusPresentsEveryRegister := by
  intro c r
  refine ⟨?_, ?_, ?_, ?_, ?_, ?_, ?_, ?_, ?_, ?_⟩ <;>
    simp (disch := omega) only [statusPort, BitVec.extractLsb'_cast, BitVec.extractLsb'_append_eq_of_le,
      extractLsb'_append_of_start_eq_zero, extractLsb'_of_start_eq_zero]

/-- The registers, read back from the fields of the layout of R83. -/
def regsOfStatus (c : Config) (status : Word (4 + c.dw + c.pw + 5 * c.tw)) : Regs c where
  motorState := status.extractLsb' 0 2
  motionRequest := (status.extractLsb' 2 1).getLsbD 0
  motorDir := (status.extractLsb' 3 1).getLsbD 0
  motorDuty := status.extractLsb' 4 c.dw
  position := status.extractLsb' (4 + c.dw) c.pw
  hiTime := status.extractLsb' (4 + c.dw + c.pw) c.tw
  riseTime := status.extractLsb' (4 + c.dw + c.pw + c.tw) c.tw
  fallTime := status.extractLsb' (4 + c.dw + c.pw + 2 * c.tw) c.tw
  lastSeenRise := status.extractLsb' (4 + c.dw + c.pw + 3 * c.tw) c.tw
  lastSeenFall := status.extractLsb' (4 + c.dw + c.pw + 4 * c.tw) c.tw

theorem regsOfStatus_statusPort {c : Config} (r : Regs c) : regsOfStatus c (statusPort r) = r := by
  obtain ⟨state, request, dir, duty, position, hiTime, rise, fall, seenRise, seenFall⟩ :=
    statusPresentsEveryRegister c r
  simp only [regsOfStatus, state, request, dir, duty, position, hiTime, rise, fall, seenRise, seenFall,
    BitVec.getLsbD_ofBool, decide_true, Bool.true_and]

/-- Settles O52: the registers can be read back. -/
theorem statusDeterminesTheRegisters : Obligations.StatusDeterminesTheRegisters :=
  fun c _ _ h => Function.LeftInverse.injective (g := regsOfStatus c) regsOfStatus_statusPort h

/-! ## the command ports and the observation -/

/-- `cmd_kind` tells whether the trace begins with Drive (R76). -/
theorem cmdKind_eq (dir : Bool) : cmdKind [] = 0b00#2 ∧ cmdKind [.halt] = 0b00#2 ∧ cmdKind [.drive dir] = 0b01#2
    ∧ cmdKind [.drive dir, .halt] = 0b01#2 := by
  cases dir <;> decide

/-- Settles O53: RESET and HOLD show no command, a SAMPLE the trace of one of its four ends. -/
theorem commandPortsShowTheTrace : Obligations.CommandPortsShowTheTrace := by
  intro i s t h
  obtain ⟨_, ⟨rst, rfl⟩ | ⟨hold, rfl⟩ | ⟨level, now, _, legal, rfl⟩⟩ := exec_next_cases h
  · exact .inl ⟨rfl, rfl, (cmdKind_eq true).1, .inl rst⟩
  · exact .inl ⟨rfl, rfl, (cmdKind_eq true).1, .inr hold⟩
  · obtain ⟨_, halt, drive, driveHalt⟩ := cmdKind_eq (sampleWork level (nowOperand s.cfg now) s.regs).regs.motorDir
    obtain ⟨trace, _⟩ | ⟨trace, _⟩ | ⟨trace, _⟩ | ⟨trace, duty, _⟩ := sampleEnd level (nowOperand s.cfg now) legal <;>
      rw [commit_trace, trace]
    · exact .inr (.inl ⟨rfl, rfl, halt⟩)
    · exact .inr (.inr (.inl ⟨_, rfl, rfl, drive⟩))
    · exact .inr (.inr (.inl ⟨_, rfl, rfl, drive⟩))
    · exact .inr (.inr (.inr ⟨_, rfl, rfl, driveHalt, duty⟩))

/-- Settles O54, by induction on the program: the last entry is the rest's last, or the first where nothing is left. -/
theorem observationCoversTheRun : Obligations.ObservationCoversTheRun := by
  intro s t program run
  induction program generalizing s with
  | nil => exact ⟨rfl, by simp [observe]⟩
  | cons i rest ih =>
    rw [runCommands] at run
    rw [observe]
    cases first : exec i s with
    | fault f => simp [first] at run
    | refused r => simp [first] at run
    | next u =>
      simp only [first] at run ⊢
      obtain ⟨length, last⟩ := ih u run
      refine ⟨congrArg (· + 1) length, fun out hout => ?_⟩
      cases rest with
      | nil =>
        obtain rfl : u = t := Host.Outcome.next.inj run
        simpa [observe, eq_comm] using hout
      | cons j more =>
        have nonempty : observe (j :: more) u ≠ [] := List.ne_nil_of_length_eq_add_one length
        rw [List.getLast?_cons_of_ne_nil nonempty] at hout
        exact last out hout

end Sys2Proof.Machine
